-- ==== Sys2Proof/Word.lean ====
section
/-! DEFINITION. The widths of the core's values (spec/00_scope.md R5, R7, R8): all unsigned bit vectors. -/

namespace Sys2Proof

/-- One byte: a general register, a timer or a memory byte (R5). -/
abbrev Byte := BitVec 8

/-- Sixteen bits: an instruction word, the index register, the program counter, a stack entry (R5). -/
abbrev Word := BitVec 16

/-- The 12-bit address immediate `nnn` (30_encoding.md R71). -/
abbrev Addr12 := BitVec 12

/-- The 4-bit immediate `n` of DRW, and a key index (R71, 44_keys_timers.md R271). -/
abbrev Nibble := BitVec 4

/-- A general register's index: a 4-bit field, so every encoding names one of V0..VF (10_state.md R20). -/
abbrev RegIdx := BitVec 4

/-- The index of VF, general register and flag (10_state.md R21). -/
abbrev vf : RegIdx := 0xF#4

end Sys2Proof
end

