-- ==== Sys2Proof/Syntax.lean ====
section
/-! DEFINITION. The instructions: one constructor for each of the 34 rows of spec/30_encoding.md R75, in its order.
Operands are R72's fields; SHR and SHL have the one operand Vx (R73). -/

namespace Sys2Proof

/-- The canonical CHIP-8 set (00_scope.md R2, 30_encoding.md R75). -/
inductive Instr where
  /-- `00E0` CLS -/
  | cls
  /-- `00EE` RET -/
  | ret
  /-- `1nnn` JP addr -/
  | jp (nnn : Addr12)
  /-- `2nnn` CALL addr -/
  | call (nnn : Addr12)
  /-- `3xkk` SE Vx,byte -/
  | seByte (x : RegIdx) (kk : Byte)
  /-- `5xy0` SE Vx,Vy -/
  | seReg (x y : RegIdx)
  /-- `4xkk` SNE Vx,byte -/
  | sneByte (x : RegIdx) (kk : Byte)
  /-- `9xy0` SNE Vx,Vy -/
  | sneReg (x y : RegIdx)
  /-- `6xkk` LD Vx,byte -/
  | ldByte (x : RegIdx) (kk : Byte)
  /-- `8xy0` LD Vx,Vy -/
  | ldReg (x y : RegIdx)
  /-- `7xkk` ADD Vx,byte -/
  | addByte (x : RegIdx) (kk : Byte)
  /-- `8xy4` ADD Vx,Vy -/
  | addReg (x y : RegIdx)
  /-- `8xy1` OR Vx,Vy -/
  | orReg (x y : RegIdx)
  /-- `8xy2` AND Vx,Vy -/
  | andReg (x y : RegIdx)
  /-- `8xy3` XOR Vx,Vy -/
  | xorReg (x y : RegIdx)
  /-- `8xy5` SUB Vx,Vy -/
  | sub (x y : RegIdx)
  /-- `8xy7` SUBN Vx,Vy -/
  | subn (x y : RegIdx)
  /-- `8xy6` SHR Vx -/
  | shr (x : RegIdx)
  /-- `8xyE` SHL Vx -/
  | shl (x : RegIdx)
  /-- `Annn` LD I,addr -/
  | ldI (nnn : Addr12)
  /-- `Bnnn` JP V0,addr -/
  | jpV0 (nnn : Addr12)
  /-- `Cxkk` RND Vx,byte -/
  | rnd (x : RegIdx) (kk : Byte)
  /-- `Dxyn` DRW Vx,Vy,nibble -/
  | drw (x y : RegIdx) (n : Nibble)
  /-- `Ex9E` SKP Vx -/
  | skp (x : RegIdx)
  /-- `ExA1` SKNP Vx -/
  | sknp (x : RegIdx)
  /-- `Fx07` LD Vx,DT -/
  | ldVxDT (x : RegIdx)
  /-- `Fx0A` LD Vx,K -/
  | ldVxK (x : RegIdx)
  /-- `Fx15` LD DT,Vx -/
  | ldDT (x : RegIdx)
  /-- `Fx18` LD ST,Vx -/
  | ldST (x : RegIdx)
  /-- `Fx1E` ADD I,Vx -/
  | addI (x : RegIdx)
  /-- `Fx29` LD F,Vx -/
  | ldF (x : RegIdx)
  /-- `Fx33` LD B,Vx -/
  | ldB (x : RegIdx)
  /-- `Fx55` LD [I],Vx -/
  | stRegs (x : RegIdx)
  /-- `Fx65` LD Vx,[I] -/
  | ldRegs (x : RegIdx)
  deriving DecidableEq, Repr

end Sys2Proof
end

