-- ==== Sys2Proof/WellFormed.lean ====
section
/-! DEFINITION. Which words spell an instruction: the assigned words, written from spec/30_encoding.md R77 and
R79's table of unassigned words, one check for each family. It is a second description beside the decoder, and a
statement says that the two agree. A term of `Instr` has no ill-formed operand: each operand's type is exactly
its field's width (R71, 10_state.md R20), so well-formedness is a property of the words. -/

namespace Sys2Proof

/-- Family 0: only 00E0 and 00EE; every other 0nnn, SYS addr among them, is unassigned (R79). -/
def assigned0 (nnn : Addr12) : Bool := nnn == 0x0E0#12 || nnn == 0x0EE#12

/-- Families 5 and 9: unassigned when op[3:0] is not 0 (R79). -/
def assigned59 (n : Nibble) : Bool := n == 0x0#4

/-- Family 8: unassigned when op[3:0] is one of 8, 9, A, B, C, D, F (R79). -/
def assigned8 (n : Nibble) : Bool :=
  !(n == 0x8#4 || n == 0x9#4 || n == 0xA#4 || n == 0xB#4 || n == 0xC#4 || n == 0xD#4 || n == 0xF#4)

/-- Family E: unassigned unless op[7:0] is 9E or A1 (R79). -/
def assignedE (kk : Byte) : Bool := kk == 0x9E#8 || kk == 0xA1#8

/-- Family F: unassigned unless op[7:0] is one of nine codes (R79). -/
def assignedF (kk : Byte) : Bool :=
  kk == 0x07#8 || kk == 0x0A#8 || kk == 0x15#8 || kk == 0x18#8 || kk == 0x1E#8 || kk == 0x29#8 ||
    kk == 0x33#8 || kk == 0x55#8 || kk == 0x65#8

/-- Is the word one of the 43954 that spell an instruction (R78, R79)? -/
def wordWellFormed (op : Word) : Bool :=
  if op >>> 12 = 0x0#16 then assigned0 (op.truncate 12)
  else if op >>> 12 = 0x5#16 ∨ op >>> 12 = 0x9#16 then assigned59 (op.truncate 4)
  else if op >>> 12 = 0x8#16 then assigned8 (op.truncate 4)
  else if op >>> 12 = 0xE#16 then assignedE (op.truncate 8)
  else if op >>> 12 = 0xF#16 then assignedF (op.truncate 8)
  else true

end Sys2Proof
end

