-- ==== Sys2Proof/Decode.lean ====
section
/-! DEFINITION. The decoder and the encoder (spec/30_encoding.md). `decodeWord` is R77's two-level dispatch,
`scanWord` R74's scan of the descriptor table of R75 in its order; a statement says that they agree. -/

namespace Sys2Proof

/-! ## Operand fields (R71, R72) -/

/-- op[15:12], the family. -/
def fieldFamily (op : Word) : Nibble := op.extractLsb' 12 4

/-- op[11:8], the register index x. -/
def fieldX (op : Word) : RegIdx := op.extractLsb' 8 4

/-- op[7:4], the register index y. PRESUMED position (GK3), log 14. -/
def fieldY (op : Word) : RegIdx := op.extractLsb' 4 4

/-- op[3:0], the nibble n. PRESUMED position (GK3), log 14. -/
def fieldN (op : Word) : Nibble := op.extractLsb' 0 4

/-- op[7:0], the byte kk. -/
def fieldKK (op : Word) : Byte := op.extractLsb' 0 8

/-- op[11:0], the address nnn. -/
def fieldNNN (op : Word) : Addr12 := op.extractLsb' 0 12

/-- An instruction word from the byte at pc and the byte at pc + 1: big-endian (20_memory.md R51, R55). -/
def assembleWord (hi lo : Byte) : Word := hi ++ lo

/-! ## The decoder (R74, R77) -/

/-- Why no instruction could be read. -/
inductive DecodeError where
  /-- R74: no descriptor matches the word. -/
  | unknownOpcode (op : Word)
  /-- Fewer than the two bytes of an instruction (R70) were given. -/
  | truncated
  deriving DecidableEq, Repr

/-- Family 0, by op[11:0] (R77). -/
def decode0 (op : Word) : Except DecodeError Instr :=
  match fieldNNN op with
  | 0x0E0#12 => .ok .cls
  | 0x0EE#12 => .ok .ret
  | _ => .error (.unknownOpcode op)

/-- Family 8, by op[3:0] (R77). SHR and SHL take any y (R73). -/
def decode8 (op : Word) : Except DecodeError Instr :=
  match fieldN op with
  | 0x0#4 => .ok (.ldReg (fieldX op) (fieldY op))
  | 0x1#4 => .ok (.orReg (fieldX op) (fieldY op))
  | 0x2#4 => .ok (.andReg (fieldX op) (fieldY op))
  | 0x3#4 => .ok (.xorReg (fieldX op) (fieldY op))
  | 0x4#4 => .ok (.addReg (fieldX op) (fieldY op))
  | 0x5#4 => .ok (.sub (fieldX op) (fieldY op))
  | 0x6#4 => .ok (.shr (fieldX op))
  | 0x7#4 => .ok (.subn (fieldX op) (fieldY op))
  | 0xE#4 => .ok (.shl (fieldX op))
  | _ => .error (.unknownOpcode op)

/-- Family E, by op[7:0] (R77). -/
def decodeE (op : Word) : Except DecodeError Instr :=
  match fieldKK op with
  | 0x9E#8 => .ok (.skp (fieldX op))
  | 0xA1#8 => .ok (.sknp (fieldX op))
  | _ => .error (.unknownOpcode op)

/-- Family F, by op[7:0] (R77). -/
def decodeF (op : Word) : Except DecodeError Instr :=
  match fieldKK op with
  | 0x07#8 => .ok (.ldVxDT (fieldX op))
  | 0x0A#8 => .ok (.ldVxK (fieldX op))
  | 0x15#8 => .ok (.ldDT (fieldX op))
  | 0x18#8 => .ok (.ldST (fieldX op))
  | 0x1E#8 => .ok (.addI (fieldX op))
  | 0x29#8 => .ok (.ldF (fieldX op))
  | 0x33#8 => .ok (.ldB (fieldX op))
  | 0x55#8 => .ok (.stRegs (fieldX op))
  | 0x65#8 => .ok (.ldRegs (fieldX op))
  | _ => .error (.unknownOpcode op)

/-- `Decode(op)` (R74), as the dispatch on op[15:12] of R77. Total: a verdict for every word. The patterns are
R75's; all but 1nnn, 6xkk and 7xkk are PRESUMED (D2, GK2), the masks R79's strict ones (D3), log 14. -/
def decodeWord (op : Word) : Except DecodeError Instr :=
  match fieldFamily op with
  | 0x0#4 => decode0 op
  | 0x1#4 => .ok (.jp (fieldNNN op))
  | 0x2#4 => .ok (.call (fieldNNN op))
  | 0x3#4 => .ok (.seByte (fieldX op) (fieldKK op))
  | 0x4#4 => .ok (.sneByte (fieldX op) (fieldKK op))
  | 0x5#4 => if fieldN op = 0x0#4 then .ok (.seReg (fieldX op) (fieldY op)) else .error (.unknownOpcode op)
  | 0x6#4 => .ok (.ldByte (fieldX op) (fieldKK op))
  | 0x7#4 => .ok (.addByte (fieldX op) (fieldKK op))
  | 0x8#4 => decode8 op
  | 0x9#4 => if fieldN op = 0x0#4 then .ok (.sneReg (fieldX op) (fieldY op)) else .error (.unknownOpcode op)
  | 0xA#4 => .ok (.ldI (fieldNNN op))
  | 0xB#4 => .ok (.jpV0 (fieldNNN op))
  | 0xC#4 => .ok (.rnd (fieldX op) (fieldKK op))
  | 0xD#4 => .ok (.drw (fieldX op) (fieldY op) (fieldN op))
  | 0xE#4 => decodeE op
  | _ => decodeF op

/-- The decoder on bytes: the instruction and the bytes after it. Every instruction is two bytes (R70). -/
def decodeBytes : List Byte → Except DecodeError (Instr × List Byte)
  | hi :: lo :: rest =>
    match decodeWord (assembleWord hi lo) with
    | .ok i => .ok (i, rest)
    | .error e => .error e
  | _ => .error .truncated

/-- The host's view of the decoder: `w` numbered as the opcode table numbers it, bits from `nbits` up zero, laid
out big-endian (20_memory.md R51). -/
def decodeTableWord (nbits w : Nat) : Option Instr :=
  match decodeBytes [BitVec.ofNat 8 (w % 2 ^ nbits / 256), BitVec.ofNat 8 (w % 2 ^ nbits)] with
  | .ok (i, _) => some i
  | .error _ => none

/-! ## The descriptor table (R74, R75) -/

/-- One descriptor: its mask, its pattern, and the instruction with the operands that R72 extracts. -/
structure Descriptor where
  mask    : Word
  pattern : Word
  build   : Word → Instr

/-- Does the descriptor match the word: `op & mask = pattern` (R74)? -/
def Descriptor.hits (d : Descriptor) (op : Word) : Bool := op &&& d.mask == d.pattern

/-- Rows 1 to 11 of R75. -/
def descriptorsA : List Descriptor :=
  [ ⟨0xFFFF, 0x00E0, fun _ => .cls⟩,
    ⟨0xFFFF, 0x00EE, fun _ => .ret⟩,
    ⟨0xF000, 0x1000, fun op => .jp (fieldNNN op)⟩,
    ⟨0xF000, 0x2000, fun op => .call (fieldNNN op)⟩,
    ⟨0xF000, 0x3000, fun op => .seByte (fieldX op) (fieldKK op)⟩,
    ⟨0xF00F, 0x5000, fun op => .seReg (fieldX op) (fieldY op)⟩,
    ⟨0xF000, 0x4000, fun op => .sneByte (fieldX op) (fieldKK op)⟩,
    ⟨0xF00F, 0x9000, fun op => .sneReg (fieldX op) (fieldY op)⟩,
    ⟨0xF000, 0x6000, fun op => .ldByte (fieldX op) (fieldKK op)⟩,
    ⟨0xF00F, 0x8000, fun op => .ldReg (fieldX op) (fieldY op)⟩,
    ⟨0xF000, 0x7000, fun op => .addByte (fieldX op) (fieldKK op)⟩ ]

/-- Rows 12 to 23 of R75. -/
def descriptorsB : List Descriptor :=
  [ ⟨0xF00F, 0x8004, fun op => .addReg (fieldX op) (fieldY op)⟩,
    ⟨0xF00F, 0x8001, fun op => .orReg (fieldX op) (fieldY op)⟩,
    ⟨0xF00F, 0x8002, fun op => .andReg (fieldX op) (fieldY op)⟩,
    ⟨0xF00F, 0x8003, fun op => .xorReg (fieldX op) (fieldY op)⟩,
    ⟨0xF00F, 0x8005, fun op => .sub (fieldX op) (fieldY op)⟩,
    ⟨0xF00F, 0x8007, fun op => .subn (fieldX op) (fieldY op)⟩,
    ⟨0xF00F, 0x8006, fun op => .shr (fieldX op)⟩,
    ⟨0xF00F, 0x800E, fun op => .shl (fieldX op)⟩,
    ⟨0xF000, 0xA000, fun op => .ldI (fieldNNN op)⟩,
    ⟨0xF000, 0xB000, fun op => .jpV0 (fieldNNN op)⟩,
    ⟨0xF000, 0xC000, fun op => .rnd (fieldX op) (fieldKK op)⟩,
    ⟨0xF000, 0xD000, fun op => .drw (fieldX op) (fieldY op) (fieldN op)⟩ ]

/-- Rows 24 to 34 of R75. -/
def descriptorsC : List Descriptor :=
  [ ⟨0xF0FF, 0xE09E, fun op => .skp (fieldX op)⟩,
    ⟨0xF0FF, 0xE0A1, fun op => .sknp (fieldX op)⟩,
    ⟨0xF0FF, 0xF007, fun op => .ldVxDT (fieldX op)⟩,
    ⟨0xF0FF, 0xF00A, fun op => .ldVxK (fieldX op)⟩,
    ⟨0xF0FF, 0xF015, fun op => .ldDT (fieldX op)⟩,
    ⟨0xF0FF, 0xF018, fun op => .ldST (fieldX op)⟩,
    ⟨0xF0FF, 0xF01E, fun op => .addI (fieldX op)⟩,
    ⟨0xF0FF, 0xF029, fun op => .ldF (fieldX op)⟩,
    ⟨0xF0FF, 0xF033, fun op => .ldB (fieldX op)⟩,
    ⟨0xF0FF, 0xF055, fun op => .stRegs (fieldX op)⟩,
    ⟨0xF0FF, 0xF065, fun op => .ldRegs (fieldX op)⟩ ]

/-- The descriptor table, in the order of R75. -/
def descriptors : List Descriptor := descriptorsA ++ descriptorsB ++ descriptorsC

/-- The first descriptor of the list that matches, applied to the word; `UnknownOpcode` when none does (R74). -/
def scanFrom (op : Word) : List Descriptor → Except DecodeError Instr
  | [] => .error (.unknownOpcode op)
  | d :: ds => if d.hits op then .ok (d.build op) else scanFrom op ds

/-- R74's decoder: the scan of the table in its order. -/
def scanWord (op : Word) : Except DecodeError Instr := scanFrom op descriptors

/-! ## The encoder (R75, R81, R83) -/

/-- Format `A`: the family and nnn (R73). -/
def encodeA (family : Nibble) (nnn : Addr12) : Word := family ++ nnn

/-- Format `XK`: the family, x and kk (R73). -/
def encodeXK (family : Nibble) (x : RegIdx) (kk : Byte) : Word := family ++ x ++ kk

/-- Formats `XY` and `XYN`, and `XS` with y = 0 (R73): the family, x, y and the last nibble. -/
def encodeXYN (family : Nibble) (x y : RegIdx) (n : Nibble) : Word := family ++ x ++ y ++ n

/-- The word of an instruction (R75, R81); SHR and SHL are written with y = 0 (R83). -/
def encode : Instr → Word
  | .cls => 0x00E0#16
  | .ret => 0x00EE#16
  | .jp nnn => encodeA 0x1#4 nnn
  | .call nnn => encodeA 0x2#4 nnn
  | .seByte x kk => encodeXK 0x3#4 x kk
  | .seReg x y => encodeXYN 0x5#4 x y 0x0#4
  | .sneByte x kk => encodeXK 0x4#4 x kk
  | .sneReg x y => encodeXYN 0x9#4 x y 0x0#4
  | .ldByte x kk => encodeXK 0x6#4 x kk
  | .ldReg x y => encodeXYN 0x8#4 x y 0x0#4
  | .addByte x kk => encodeXK 0x7#4 x kk
  | .addReg x y => encodeXYN 0x8#4 x y 0x4#4
  | .orReg x y => encodeXYN 0x8#4 x y 0x1#4
  | .andReg x y => encodeXYN 0x8#4 x y 0x2#4
  | .xorReg x y => encodeXYN 0x8#4 x y 0x3#4
  | .sub x y => encodeXYN 0x8#4 x y 0x5#4
  | .subn x y => encodeXYN 0x8#4 x y 0x7#4
  | .shr x => encodeXYN 0x8#4 x 0x0#4 0x6#4
  | .shl x => encodeXYN 0x8#4 x 0x0#4 0xE#4
  | .ldI nnn => encodeA 0xA#4 nnn
  | .jpV0 nnn => encodeA 0xB#4 nnn
  | .rnd x kk => encodeXK 0xC#4 x kk
  | .drw x y n => encodeXYN 0xD#4 x y n
  | .skp x => encodeXK 0xE#4 x 0x9E#8
  | .sknp x => encodeXK 0xE#4 x 0xA1#8
  | .ldVxDT x => encodeXK 0xF#4 x 0x07#8
  | .ldVxK x => encodeXK 0xF#4 x 0x0A#8
  | .ldDT x => encodeXK 0xF#4 x 0x15#8
  | .ldST x => encodeXK 0xF#4 x 0x18#8
  | .addI x => encodeXK 0xF#4 x 0x1E#8
  | .ldF x => encodeXK 0xF#4 x 0x29#8
  | .ldB x => encodeXK 0xF#4 x 0x33#8
  | .stRegs x => encodeXK 0xF#4 x 0x55#8
  | .ldRegs x => encodeXK 0xF#4 x 0x65#8

/-- The word with op[7:4] cleared: what re-encoding gives for a decoded SHR or SHL (R81, R83). -/
def clearY (op : Word) : Word := op &&& 0xFF0F#16

/-- Is the instruction of format `XS`, whose y is a don't-care (R73)? -/
def Instr.isXS : Instr → Bool
  | .shr _ => true
  | .shl _ => true
  | .cls | .ret | .jp _ | .call _ | .seByte _ _ | .seReg _ _ | .sneByte _ _ | .sneReg _ _ | .ldByte _ _
  | .ldReg _ _ | .addByte _ _ | .addReg _ _ | .orReg _ _ | .andReg _ _ | .xorReg _ _ | .sub _ _ | .subn _ _
  | .ldI _ | .jpV0 _ | .rnd _ _ | .drw _ _ _ | .skp _ | .sknp _ | .ldVxDT _ | .ldVxK _ | .ldDT _ | .ldST _
  | .addI _ | .ldF _ | .ldB _ | .stRegs _ | .ldRegs _ => false

end Sys2Proof
end

