-- ==== Sys2Proof/Config.lean ====
section
/-! DEFINITION. What is fixed for a machine (the launch parameters of spec/00_scope.md R6) and the free values
that the random port and the keypad port supply (41_alu.md R154, 44_keys_timers.md R272). -/

namespace Sys2Proof

/-- `VF_ALIAS_POLICY` (41_alu.md R141): VF both operand or destination and flag. DESIGN CHOICE, log 10. -/
inductive VfAliasPolicy where
  | latched
  | refuse
  deriving DecidableEq, Repr

/-- `I_ADD_POLICY` (42_index_memory.md R192): what ADD I,Vx does when the sum is large. DESIGN CHOICE, log 11. -/
inductive IAddPolicy where
  | keep16
  | mask12
  | fault
  deriving DecidableEq, Repr

/-- `ODD_PC_POLICY` (20_memory.md R55): a fetch at an odd pc. DESIGN CHOICE, log 12. -/
inductive OddPcPolicy where
  | fetch
  | fault
  deriving DecidableEq, Repr

/-- `KEY_INDEX_HIGH` (44_keys_timers.md R272): SKP and SKNP when V[x] names no key. DESIGN CHOICE, log 7. -/
inductive KeyIndexHigh where
  | draw
  | notPressed
  deriving DecidableEq, Repr

/-- `RESET_REGS` (10_state.md R38): the registers and the display at reset. DESIGN CHOICE, log 36. -/
inductive ResetRegs where
  | zero
  | launchInput
  deriving DecidableEq, Repr

/-- `TIMER_AT_ZERO` (60_exceptions.md R292): a tick of a timer that is 0. DESIGN CHOICE, log 13. -/
inductive TimerAtZero where
  | stop
  | wrap
  deriving DecidableEq, Repr

/-- The parameters of 00_scope.md R6 but for `MEM_INIT`, which is an argument of the reset. -/
structure Params where
  vfAlias     : VfAliasPolicy
  iAdd        : IAddPolicy
  oddPc       : OddPcPolicy
  keyHigh     : KeyIndexHigh
  resetRegs   : ResetRegs
  timerAtZero : TimerAtZero
  deriving DecidableEq, Repr

/-- R6's column "default": the decisions taken for this hardware. DESIGN CHOICE, log 9. -/
def Params.default : Params :=
  { vfAlias := .latched, iAdd := .keep16, oddPc := .fetch, keyHigh := .draw, resetRegs := .zero,
    timerAtZero := .stop }

/-- `Rand()`: the random port's answer to the draw of a given number, a FREE VALUE (41_alu.md R154): no law
constrains it. Log 6. -/
opaque Config.randByte : Nat → Byte

/-- The 1-bit input of SKP and SKNP for V[x] above 0xF under `KEY_INDEX_HIGH = draw`, a FREE VALUE
(44_keys_timers.md R272). Log 7. -/
opaque Config.highKeyHeld : Nat → Bool

end Sys2Proof
end

