-- ==== Sys2Proof/Machine/State.lean ====
section
/-! DEFINITION. The machine's state as plain data (spec/10_state.md section 1), the reasons a step can stop, and
the state after reset (10_state.md R38). -/

namespace Sys2Proof.Machine

/-- The state of the engine (10_state.md R33): Halted is terminal. -/
inductive RunState where
  | running
  | halted
  deriving DecidableEq, Repr

/-- The five fault kinds (60_exceptions.md R281). -/
inductive FaultKind where
  | outOfBounds
  | stackOverflow
  | stackUnderflow
  | unknownOpcode
  | invalidDigit
  deriving DecidableEq, Repr

/-- The fault record (kind, pc, opcode?) (60_exceptions.md R282). -/
structure FaultRecord where
  kind   : FaultKind
  pc     : Word
  opcode : Option Word
  deriving DecidableEq, Repr

/-- Memory as its listed bytes: addresses strictly rising, no byte listed that an unlisted address reads as. -/
abbrev Memory := List Host.Cell

/-- The display's pixel store, indexed `FB[px][py]` (43_display.md R240). -/
abbrev FrameBuffer := Vector (Vector Bool 32) 64

/-- The whole machine: `CoreState`, `M` and `FB` of 10_state.md section 1, the keypad port's present answers
(44_keys_timers.md R270, R271), the launch parameters (00_scope.md R6) and the model's draw counter. -/
structure State where
  /-- V0..VF (R20). -/
  v       : Vector Byte 16
  /-- The index register I (R28). -/
  i       : Word
  /-- The program counter (R23). -/
  pc      : Word
  /-- The return stack entries S[0..15] (R29). -/
  stack   : Vector Word 16
  /-- SP + 1, the number of stack entries in use (R29); log 28. -/
  depth   : Fin 17
  /-- The delay timer (R32). -/
  dt      : Byte
  /-- The sound timer (R32). -/
  st      : Byte
  /-- Running or Halted (R33). -/
  run     : RunState
  /-- The fault record, `none` until the core halts (R33). -/
  fault   : Option FaultRecord
  /-- The 4096-byte memory (20_memory.md R50). -/
  mem     : Memory
  /-- The display's pixels (43_display.md R240). -/
  fb      : FrameBuffer
  /-- `Keys.mask()`: bit i is 1 exactly when key i is held (44_keys_timers.md R270); log 5. -/
  keys    : BitVec 16
  /-- `Keys.pending()` (44_keys_timers.md R271); log 5. -/
  pending : Option Nibble
  /-- The model's own: how many free values have been drawn (logs 6, 7, 8). -/
  draws   : Nat
  /-- The launch parameters (00_scope.md R6), fixed for the machine's life; log 9. -/
  params  : Params
  deriving DecidableEq, Repr

/-- Why the machine stops without a next state. The core's own five faults are TAKEN (a next state that is Halted,
log 1) and are not here. -/
inductive Fault where
  /-- An address above 0xFFF was presented to the memory port, against the precondition of 20_memory.md R53 and
  R54. Raised by the fetch and by DRW, LD B, LD [I] and LD Vx,[I] if their bounds check (R52) let one through: it
  does not, and a statement says so. Safe: the model stops. -/
  | memoryPort
  deriving DecidableEq, Repr

/-- Why a step or an instruction has no move. -/
inductive Refusal where
  /-- The instruction has no meaning yet. Raised by no arm of `exec` now. Safe. -/
  | notModelled (mnemonic : String)
  /-- A step was requested while Halted: nothing changes (60_exceptions.md R286). Raised by `step`. Safe: it is
  the spec's own outcome `Refused`. -/
  | halted
  /-- `Unmodelled(VFAlias)` (00_scope.md R11, 41_alu.md R141): under `VF_ALIAS_POLICY = refuse`, not the default,
  raised by ADD Vx,Vy, SUB, SUBN, SHR, SHL and DRW on the cases of R141. Safe: errs toward unprovable. -/
  | vfAlias
  deriving DecidableEq, Repr

/-- What one step or one instruction answers. -/
abbrev Result := Host.Outcome State Fault Refusal

/-- The program entry point (R5, R38): "execution always begins with PC = 0x200". -/
def entryPoint : Word := 0x200#16

/-- The state after reset (10_state.md R38), at the default parameters. pc, SP, run and fault are stated or
derived there; V, I, DT, ST, S (log 3), FB (log 4), the keypad (log 5), the draw counter (log 8), the parameters
(log 9) and the memory's content (log 2) are DESIGN CHOICES named in the log. -/
def State.reset : State :=
  { v := Vector.replicate 16 0
    i := 0
    pc := entryPoint
    stack := Vector.replicate 16 0
    depth := 0
    dt := 0
    st := 0
    run := .running
    fault := none
    mem := []
    fb := Vector.replicate 64 (Vector.replicate 32 false)
    keys := 0
    pending := none
    draws := 0
    params := Params.default }

end Sys2Proof.Machine
end

