-- ==== Sys2Proof/Machine/Ops.lean ====
section
/-! DEFINITION. The named operations over memory, registers, the stack and the pc, the fetch, and TAKING A FAULT,
the core's only exception (spec/60_exceptions.md R280, R283; there is no return from one, R287). -/

namespace Sys2Proof.Machine

/-! ## Memory (20_memory.md) -/

/-- The number of bytes of memory: addresses 0x000 to 0xFFF (R50). -/
def memorySize : Nat := 0x1000

/-- What an address that is not listed reads as. DESIGN CHOICE, log 2. -/
def Memory.unlisted : Byte := 0

/-- The byte at an address. -/
def Memory.read : Memory → Nat → Byte
  | [], _ => Memory.unlisted
  | (b, u) :: m, a => if a = b then u else Memory.read m a

/-- Put a byte in front of the listed bytes, unless an unlisted address reads as it. -/
def Memory.put (a : Nat) (v : Byte) (m : Memory) : Memory := if v = Memory.unlisted then m else (a, v) :: m

/-- Write a byte at an address, keeping the canonical form. -/
def Memory.write : Memory → Nat → Byte → Memory
  | [], a, v => Memory.put a v []
  | (b, u) :: m, a, v =>
    if a < b then Memory.put a v ((b, u) :: m)
    else if a = b then Memory.put a v m
    else (b, u) :: Memory.write m a v

/-- The listed bytes are in canonical form from address `lo` on: inside the memory, strictly rising, and none of
them what an unlisted address reads as. -/
def Memory.wfFrom : Nat → Memory → Bool
  | _, [] => true
  | lo, (b, u) :: m => decide (lo ≤ b) && decide (b < memorySize) && u != Memory.unlisted && Memory.wfFrom (b + 1) m

/-- The canonical form of memory. -/
def Memory.wf (m : Memory) : Bool := Memory.wfFrom 0 m

/-- A memory image as bytes from address `a` on, in canonical form. DESIGN CHOICE, log 38: an image shorter than the
memory leaves the rest as unlisted bytes; bytes past the memory's end are not taken, so that the function is total. No
run rests on the latter: an image of more than 4096 bytes is no launch (`State.resetWithImage`). -/
def Memory.ofBytes : Nat → List Byte → Memory
  | _, [] => []
  | a, b :: bs => if a < memorySize then Memory.put a b (Memory.ofBytes (a + 1) bs) else []

/-- `MemRead(a, 1)` on the memory port (R53): no answer for an address above 0xFFF. A read has no side effect. -/
def State.memRead (s : State) (a : Nat) : Option Byte :=
  if a < memorySize then some (s.mem.read a) else none

/-- `MemWrite(a, 1, v)` on the memory port (R54): no answer for an address above 0xFFF. -/
def State.memWrite (s : State) (a : Nat) (v : Byte) : Option State :=
  if a < memorySize then some { s with mem := s.mem.write a v } else none

/-- The bytes read at `a`, `a + 1`, …, in ascending order. -/
def State.readBlock (s : State) (a : Nat) : Nat → Option (List Byte)
  | 0 => some []
  | n + 1 =>
    match s.memRead a with
    | none => none
    | some b =>
      match s.readBlock (a + 1) n with
      | none => none
      | some bs => some (b :: bs)

/-- Write bytes at `a`, `a + 1`, …, in ascending order. -/
def State.writeBlock (s : State) (a : Nat) : List Byte → Option State
  | [] => some s
  | b :: bs =>
    match s.memWrite a b with
    | none => none
    | some t => t.writeBlock (a + 1) bs

/-! ## General registers (10_state.md R20) -/

/-- `V[x]`. -/
def State.reg (s : State) (x : RegIdx) : Byte := s.v[x.toNat]'(x.isLt)

/-- `V[x] <- b`. No register is hardwired (R20). -/
def State.setReg (s : State) (x : RegIdx) (b : Byte) : State := { s with v := s.v.set x.toNat b x.isLt }

/-- `V[k] <- b`, `V[k+1] <- …`, in ascending order. -/
def State.setRegs (s : State) (k : Nat) : List Byte → State
  | [] => s
  | b :: bs => (s.setReg (BitVec.ofNat 4 k) b).setRegs (k + 1) bs

/-- `V[F] <- flag`, then `V[x] <- r`: the order of writes in a flag-setting instruction (41_alu.md R140). With
x = F the result is what stays (R141, `latched`). -/
def State.setFlagThenReg (s : State) (flag : Byte) (x : RegIdx) (r : Byte) : State :=
  (s.setReg vf flag).setReg x r

/-! ## The other registers -/

/-- `I <- w`. -/
def State.setI (s : State) (w : Word) : State := { s with i := w }

/-- `DT <- b`. -/
def State.setDT (s : State) (b : Byte) : State := { s with dt := b }

/-- `ST <- b`. -/
def State.setST (s : State) (b : Byte) : State := { s with st := b }

/-- The display's pixels replaced. -/
def State.setFB (s : State) (f : FrameBuffer) : State := { s with fb := f }

/-- One more free value has been drawn (logs 6, 7, 8). -/
def State.drew (s : State) : State := { s with draws := s.draws + 1 }

/-! ## The program counter (10_state.md R23, R24) -/

/-- `pc <- target`: the path "explicit" of R24. -/
def State.jump (s : State) (target : Word) : State := { s with pc := target }

/-- `pc <- pc + 2`: the path "next" of R24. The sum is a 16-bit one; it never wraps in a run (R26, log 29). -/
def State.goNext (s : State) : State := s.jump (s.pc + 2#16)

/-- `pc <- pc + 4`: the path "skip" of R24. -/
def State.goSkip (s : State) : State := s.jump (s.pc + 4#16)

/-- A conditional skip: `advance(4)` when the condition holds, else `advance(2)`. -/
def State.skipIf (s : State) (c : Bool) : State := if c then s.goSkip else s.goNext

/-! ## The return stack (10_state.md R29) -/

/-- The stack pointer as the spec counts it: −1 when empty, 15 when full (R29). -/
def State.sp (s : State) : Int := (s.depth.val : Int) - 1

/-- `Push(v)` (R30); `none` when the stack is full, SP = 15. -/
def State.push (s : State) (w : Word) : Option State :=
  if h : s.depth.val < 16 then
    some { s with stack := s.stack.set s.depth.val w h, depth := ⟨s.depth.val + 1, by omega⟩ }
  else none

/-- `Pop()` (R31): the popped entry and the state after; `none` when the stack is empty, SP = −1. The entry keeps
its value. -/
def State.pop (s : State) : Option (Word × State) :=
  if h : 0 < s.depth.val then
    some (s.stack[s.depth.val - 1]'(by omega), { s with depth := ⟨s.depth.val - 1, by omega⟩ })
  else none

/-! ## Taking a fault (60_exceptions.md R281 to R284) -/

/-- The numeric code of a fault kind (R281, decision D17: the spec's own labels). -/
def FaultKind.code : FaultKind → Nat
  | .outOfBounds => 1
  | .stackOverflow => 2
  | .stackUnderflow => 3
  | .unknownOpcode => 4
  | .invalidDigit => 5

/-- `raise Fault(kind, pc, op)` (R283): run becomes Halted, the record is written, and nothing else changes; pc
stays at the faulting instruction. The one operation that takes the core's exception; log 1. -/
def State.raise (s : State) (kind : FaultKind) (op : Option Word) : State :=
  { s with run := .halted, fault := some { kind := kind, pc := s.pc, opcode := op } }

/-- An instruction's own fault: the step ends in the Halted state, with the instruction's word in the record
(R282). The word is the instruction's encoding, log 22. -/
def State.trap (s : State) (kind : FaultKind) (instr : Instr) : Result := .next (s.raise kind (some (encode instr)))

/-! ## Fetch (20_memory.md R55) -/

/-- What the fetch gives: the word, the fetch's fault, or an address the memory port does not have. -/
inductive FetchResult where
  | word (op : Word)
  | outOfBounds
  | memoryPort
  deriving DecidableEq, Repr

/-- `Fetch16(pc)` (R55): big-endian, from pc and pc + 1; a fault when pc > 0xFFD, or when pc is odd under
`ODD_PC_POLICY = fault` (log 12). -/
def State.fetch16 (s : State) : FetchResult :=
  if s.pc.toNat > 0xFFD then .outOfBounds
  else if s.params.oddPc = .fault ∧ s.pc.getLsbD 0 = true then .outOfBounds
  else
    match s.memRead s.pc.toNat, s.memRead (s.pc.toNat + 1) with
    | some hi, some lo => .word (assembleWord hi lo)
    | _, _ => .memoryPort

/-- A word stored big-endian at an address, for placing an instruction where the fetch reads it. -/
def Memory.writeWord (m : Memory) (a : Nat) (op : Word) : Memory :=
  (m.write a (op.extractLsb' 8 8)).write (a + 1) (op.extractLsb' 0 8)

end Sys2Proof.Machine
end

