-- ==== Sys2Proof/Machine/Flags.lean ====
section
/-! DEFINITION. VF as a flag: every flag computation (spec/10_state.md R27) and the alias cases of 41_alu.md R141. -/

namespace Sys2Proof.Machine

/-- A flag as the byte VF gets: 1 or 0. -/
def flagByte (b : Bool) : Byte := if b then 1#8 else 0#8

/-- The carry of ADD Vx,Vy (41_alu.md R145). -/
def carryFlag (a b : Byte) : Byte := flagByte (decide (a.toNat + b.toNat > 255))

/-- "NOT borrow" of a − b (R149, R150). -/
def notBorrowFlag (a b : Byte) : Byte := flagByte (decide (a.toNat ≥ b.toNat))

/-- The bit SHR shifts out (R151). -/
def shrFlag (a : Byte) : Byte := a &&& 1#8

/-- The bit SHL shifts out (R152). -/
def shlFlag (a : Byte) : Byte := (a >>> 7) &&& 1#8

/-- The alias case of ADD Vx,Vy, SHR and SHL: x = F (R141). -/
def aliasX (x : RegIdx) : Bool := x == vf

/-- The alias case of SUB, SUBN and DRW: x = F or y = F (R141). -/
def aliasXY (x y : RegIdx) : Bool := x == vf || y == vf

/-- `VF_ALIAS_POLICY` (R141, log 10): under `refuse` an alias case is `Unmodelled(VFAlias)`, before the
instruction does anything (60_exceptions.md R300); else the instruction runs on its latched operands. -/
def State.unlessAlias (s : State) (aliased : Bool) (r : Result) : Result :=
  if s.params.vfAlias = .refuse ∧ aliased = true then .refused .vfAlias else r

end Sys2Proof.Machine
end

