-- ==== Sys2Proof/Machine/Alu.lean ====
section
/-! DEFINITION. The register, arithmetic and logic instructions and RND (spec/41_alu.md). Operands are read at the
start, VF is written before Vx, every instruction ends with `advance(2)` and none faults (R140). -/

namespace Sys2Proof.Machine

/-- `V[x] <- r`, then `advance(2)`: the instructions that set no flag (R142 to R144, R146 to R148). -/
def State.finishReg (s : State) (x : RegIdx) (r : Byte) : Result := .next (s.setReg x r).goNext

/-- VF, then `V[x]`, then `advance(2)`: the flag-setting instructions (R140). -/
def State.finishFlagReg (s : State) (flag : Byte) (x : RegIdx) (r : Byte) : Result :=
  .next (s.setFlagThenReg flag x r).goNext

/-- LD Vx,byte (R142). -/
def execLdByte (x : RegIdx) (kk : Byte) (s : State) : Result := s.finishReg x kk

/-- LD Vx,Vy (R143). -/
def execLdReg (x y : RegIdx) (s : State) : Result := s.finishReg x (s.reg y)

/-- ADD Vx,byte (R144): modulo 256, no flag. -/
def execAddByte (x : RegIdx) (kk : Byte) (s : State) : Result := s.finishReg x (s.reg x + kk)

/-- ADD Vx,Vy (R145; x = F: R141). -/
def execAddReg (x y : RegIdx) (s : State) : Result :=
  s.unlessAlias (aliasX x) (s.finishFlagReg (carryFlag (s.reg x) (s.reg y)) x (s.reg x + s.reg y))

/-- OR Vx,Vy (R146). -/
def execOrReg (x y : RegIdx) (s : State) : Result := s.finishReg x (s.reg x ||| s.reg y)

/-- AND Vx,Vy (R147). -/
def execAndReg (x y : RegIdx) (s : State) : Result := s.finishReg x (s.reg x &&& s.reg y)

/-- XOR Vx,Vy (R148). -/
def execXorReg (x y : RegIdx) (s : State) : Result := s.finishReg x (s.reg x ^^^ s.reg y)

/-- SUB Vx,Vy (R149; x = F or y = F: R141). -/
def execSub (x y : RegIdx) (s : State) : Result :=
  s.unlessAlias (aliasXY x y) (s.finishFlagReg (notBorrowFlag (s.reg x) (s.reg y)) x (s.reg x - s.reg y))

/-- SUBN Vx,Vy (R150; x = F or y = F: R141). -/
def execSubn (x y : RegIdx) (s : State) : Result :=
  s.unlessAlias (aliasXY x y) (s.finishFlagReg (notBorrowFlag (s.reg y) (s.reg x)) x (s.reg y - s.reg x))

/-- SHR Vx (R151; x = F: R141). Vy is never read. -/
def execShr (x : RegIdx) (s : State) : Result :=
  s.unlessAlias (aliasX x) (s.finishFlagReg (shrFlag (s.reg x)) x (s.reg x >>> 1))

/-- SHL Vx (R152; x = F: R141). Vy is never read. -/
def execShl (x : RegIdx) (s : State) : Result :=
  s.unlessAlias (aliasX x) (s.finishFlagReg (shlFlag (s.reg x)) x (s.reg x <<< 1))

/-- RND Vx,byte (R153, R154): the random byte is a free value, drawn anew for each RND; log 6. -/
def execRnd (x : RegIdx) (kk : Byte) (s : State) : Result :=
  s.drew.finishReg x (Config.randByte s.draws &&& kk)

end Sys2Proof.Machine
end

