-- ==== Sys2Proof/Machine/Operands.lean ====
section
/-! DEFINITION. The operand forms: the effective addresses through I and their bounds check (spec/42_index_memory.md
R190, 20_memory.md R52), the register block V[0..x], the digits of LD B, the font address of LD F, the key that
SKP and SKNP name (44_keys_timers.md R272), and the sum of ADD I,Vx. -/

namespace Sys2Proof.Machine

/-- The effective address `I + k` (R190), on unbounded integers (decision D28, log 27). -/
def State.ea (s : State) (k : Nat) : Nat := s.i.toNat + k

/-- The bounds check of a range that starts at I and whose last byte is at `I + k` (R52): does it leave the
memory? -/
def State.beyond (s : State) (k : Nat) : Bool := decide (s.ea k > 0xFFF)

/-- `V[0], …, V[x]`, ascending (R22, R195). -/
def State.regBlock (s : State) (x : RegIdx) : List Byte :=
  (List.range (x.toNat + 1)).map fun k => s.reg (BitVec.ofNat 4 k)

/-- The three digit bytes of LD B,Vx, hundreds first (R194). -/
def bcdDigits (b : Byte) : List Byte :=
  [BitVec.ofNat 8 (b.toNat / 100), BitVec.ofNat 8 (b.toNat / 10 % 10), BitVec.ofNat 8 (b.toNat % 10)]

/-- The address of a digit's font glyph, `V[x] * 5` (R193). -/
def fontAddress (b : Byte) : Word := BitVec.ofNat 16 (b.toNat * 5)

/-- The target of JP V0,addr: not masked to 12 bits (40_control_flow.md R108, decision D8, log 16). -/
def offsetTarget (v0 : Byte) (nnn : Addr12) : Word := v0.zeroExtend 16 + nnn.zeroExtend 16

/-- The sum of ADD I,Vx on unbounded integers (R192). -/
def State.indexSum (s : State) (x : RegIdx) : Nat := s.i.toNat + (s.reg x).toNat

/-- What ADD I,Vx writes to I under each `I_ADD_POLICY` (R192, log 11); `none` is the fault. -/
def indexAfterAdd (p : IAddPolicy) (t : Nat) : Option Word :=
  match p with
  | .keep16 => some (BitVec.ofNat 16 t)
  | .mask12 => some (BitVec.ofNat 16 (t % 2 ^ 12))
  | .fault => if t > 0xFFF then none else some (BitVec.ofNat 16 t)

/-- `KeyHeld(k)` for a value that names no key (R272): a free value under `draw`, else not pressed. -/
def highKeyHeld (p : KeyIndexHigh) (draw : Bool) : Bool :=
  match p with
  | .draw => draw
  | .notPressed => false

/-- `KeyHeld(k)` (R272). The free value is the one numbered by the draw counter. -/
def State.keyHeld (s : State) (k : Byte) : Bool :=
  if k.toNat ≤ 0xF then s.keys.getLsbD k.toNat
  else highKeyHeld s.params.keyHigh (Config.highKeyHeld s.draws)

/-- The state after `KeyHeld(k)` was asked: a draw advances the counter, nothing else changes. -/
def State.afterKeyHeld (s : State) (k : Byte) : State :=
  if k.toNat > 0xF ∧ s.params.keyHigh = .draw then s.drew else s

end Sys2Proof.Machine
end

