-- ==== Sys2Proof/Machine/ControlFlow.lean ====
section
/-! DEFINITION. RET, JP addr, CALL addr, SE, SNE and JP V0,addr (spec/40_control_flow.md). No target is checked when
it is set; no instruction has a delay slot (R100). -/

namespace Sys2Proof.Machine

/-- RET (R101): `StackUnderflow` when SP = −1. -/
def execRet (s : State) : Result :=
  match s.pop with
  | some (target, t) => .next (t.jump target)
  | none => s.trap .stackUnderflow .ret

/-- JP addr (R102). -/
def execJp (nnn : Addr12) (s : State) : Result := .next (s.jump (nnn.zeroExtend 16))

/-- CALL addr (R103): `StackOverflow` when SP = 15. -/
def execCall (nnn : Addr12) (s : State) : Result :=
  match s.push (s.pc + 2#16) with
  | some t => .next (t.jump (nnn.zeroExtend 16))
  | none => s.trap .stackOverflow (.call nnn)

/-- SE Vx,byte (R104). -/
def execSeByte (x : RegIdx) (kk : Byte) (s : State) : Result := .next (s.skipIf (s.reg x == kk))

/-- SE Vx,Vy (R105). -/
def execSeReg (x y : RegIdx) (s : State) : Result := .next (s.skipIf (s.reg x == s.reg y))

/-- SNE Vx,byte (R106). -/
def execSneByte (x : RegIdx) (kk : Byte) (s : State) : Result := .next (s.skipIf (s.reg x != kk))

/-- SNE Vx,Vy (R107). -/
def execSneReg (x y : RegIdx) (s : State) : Result := .next (s.skipIf (s.reg x != s.reg y))

/-- JP V0,addr (R108). -/
def execJpV0 (nnn : Addr12) (s : State) : Result := .next (s.jump (offsetTarget (s.reg 0x0#4) nnn))

end Sys2Proof.Machine
end

