-- ==== Sys2Proof/Machine/Display.lean ====
section
/-! DEFINITION. The display port's reference model and CLS and DRW with the collision detector
(spec/43_display.md). -/

namespace Sys2Proof.Machine

/-- The pixel `FB[px][py]` (R240). -/
def FrameBuffer.pixel (f : FrameBuffer) (px : Fin 64) (py : Fin 32) : Bool := (f[px])[py]

/-- `FB[px][py] <- b`. -/
def FrameBuffer.setPixel (f : FrameBuffer) (px : Fin 64) (py : Fin 32) (b : Bool) : FrameBuffer :=
  f.set px (f[px].set py b)

/-- `Display.clear()` (R240): every pixel 0. -/
def FrameBuffer.clear : FrameBuffer := Vector.replicate 64 (Vector.replicate 32 false)

/-- `Display.drawPixel(px, py, b)` (R241): the pixels after, and the collision bit `old AND b`. -/
def FrameBuffer.drawPixel (f : FrameBuffer) (px : Fin 64) (py : Fin 32) (b : Bool) : FrameBuffer × Bool :=
  (f.setPixel px py (f.pixel px py ^^ b), f.pixel px py && b)

/-- The column a sprite bit lands on (R223). -/
def spriteX (xo : Byte) (c : Nat) : Fin 64 := Fin.ofNat 64 (xo.toNat + c)

/-- The row a sprite bit lands on (R223). -/
def spriteY (yo : Byte) (r : Nat) : Fin 32 := Fin.ofNat 32 (yo.toNat + r)

/-- The bit of a sprite row in column c, most significant bit first (R221). -/
def spriteBit (row : Byte) (c : Nat) : Bool := row.getLsbD (7 - c)

/-- One column of one row: drawn, with b = 1, only when the sprite's bit is set (R221; decision D10, log 18); the
collision is ORed into the accumulator (R224). -/
def drawBit (px : Fin 64) (py : Fin 32) (bit : Bool) (acc : FrameBuffer × Bool) : FrameBuffer × Bool :=
  if bit then ((acc.1.drawPixel px py true).1, acc.2 || (acc.1.drawPixel px py true).2) else acc

/-- The columns of the list, in its order, of the sprite row that lands on display row `py` (R221). -/
def drawColumns (xo : Byte) (py : Fin 32) (row : Byte) : List Nat → FrameBuffer × Bool → FrameBuffer × Bool
  | [], acc => acc
  | c :: cs, acc => drawColumns xo py row cs (drawBit (spriteX xo c) py (spriteBit row c) acc)

/-- The columns of a sprite row, left to right (R221). -/
def spriteColumns : List Nat := [0, 1, 2, 3, 4, 5, 6, 7]

/-- The sprite's rows from row r on, top to bottom (R221). -/
def drawRows (xo yo : Byte) (r : Nat) : List Byte → FrameBuffer × Bool → FrameBuffer × Bool
  | [], acc => acc
  | row :: rows, acc => drawRows xo yo (r + 1) rows (drawColumns xo (spriteY yo r) row spriteColumns acc)

/-- A whole sprite on the display: the pixels after, and whether any pixel collided (R221, R224). -/
def drawSprite (xo yo : Byte) (rows : List Byte) (f : FrameBuffer) : FrameBuffer × Bool :=
  drawRows xo yo 0 rows (f, false)

/-- The DRW bounds check (R222, decision D9, log 17): n = 0 is not checked. -/
def State.spriteBeyond (s : State) (n : Nibble) : Bool :=
  decide (n.toNat ≥ 1) && decide (s.i.toNat + n.toNat - 1 > 0xFFF)

/-- CLS (R220). -/
def execCls (s : State) : Result := .next (s.setFB FrameBuffer.clear).goNext

/-- The effect of DRW once the sprite's rows are read: the pixels, VF, and `advance(2)` (R221). -/
def State.drawn (s : State) (x y : RegIdx) (rows : List Byte) : State :=
  ((s.setFB (drawSprite (s.reg x) (s.reg y) rows s.fb).1).setReg vf
    (flagByte (drawSprite (s.reg x) (s.reg y) rows s.fb).2)).goNext

/-- DRW's bounds check, its reads and its effect (R221, R222). -/
def State.drawChecked (s : State) (x y : RegIdx) (n : Nibble) : Result :=
  if s.spriteBeyond n then s.trap .outOfBounds (.drw x y n)
  else
    match s.readBlock (s.ea 0) n.toNat with
    | some rows => .next (s.drawn x y rows)
    | none => .fault .memoryPort

/-- DRW Vx,Vy,nibble (R221, R222; x = F or y = F: R141). The coordinates are read before VF is written (R10). -/
def execDrw (x y : RegIdx) (n : Nibble) (s : State) : Result :=
  s.unlessAlias (aliasXY x y) (s.drawChecked x y n)

end Sys2Proof.Machine
end

