-- ==== Sys2Proof/Machine/IndexMemory.lean ====
section
/-! DEFINITION. The index register and memory instructions (spec/42_index_memory.md). Each checks the bounds of its
whole range before its first access, and no access changes I (R190). -/

namespace Sys2Proof.Machine

/-- LD I,addr (R191). -/
def execLdI (nnn : Addr12) (s : State) : Result := .next (s.setI (nnn.zeroExtend 16)).goNext

/-- ADD I,Vx (R192), under the machine's `I_ADD_POLICY`; VF is unchanged. -/
def execAddI (x : RegIdx) (s : State) : Result :=
  match indexAfterAdd s.params.iAdd (s.indexSum x) with
  | some w => .next (s.setI w).goNext
  | none => s.trap .outOfBounds (.addI x)

/-- LD F,Vx (R193): `InvalidDigit` when V[x] > 0xF. -/
def execLdF (x : RegIdx) (s : State) : Result :=
  if (s.reg x).toNat > 0xF then s.trap .invalidDigit (.ldF x)
  else .next (s.setI (fontAddress (s.reg x))).goNext

/-- Store bytes from I on (R194, R195): `OutOfBounds` when the last of them, at `I + last`, is beyond 0xFFF. -/
def State.storeAtI (s : State) (instr : Instr) (last : Nat) (bs : List Byte) : Result :=
  if s.beyond last then s.trap .outOfBounds instr
  else
    match s.writeBlock (s.ea 0) bs with
    | some t => .next t.goNext
    | none => .fault .memoryPort

/-- LD B,Vx (R194). -/
def execLdB (x : RegIdx) (s : State) : Result := s.storeAtI (.ldB x) 2 (bcdDigits (s.reg x))

/-- LD [I],Vx (R195). -/
def execStRegs (x : RegIdx) (s : State) : Result := s.storeAtI (.stRegs x) x.toNat (s.regBlock x)

/-- LD Vx,[I] (R196). -/
def execLdRegs (x : RegIdx) (s : State) : Result :=
  if s.beyond x.toNat then s.trap .outOfBounds (.ldRegs x)
  else
    match s.readBlock (s.ea 0) (x.toNat + 1) with
    | some bs => .next (s.setRegs 0 bs).goNext
    | none => .fault .memoryPort

end Sys2Proof.Machine
end

