-- ==== Sys2Proof/Machine/KeysTimers.lean ====
section
/-! DEFINITION. SKP, SKNP, LD Vx,DT, LD Vx,K, LD DT,Vx and LD ST,Vx (spec/44_keys_timers.md). -/

namespace Sys2Proof.Machine

/-- SKP Vx (R250). -/
def execSkp (x : RegIdx) (s : State) : Result :=
  .next ((s.afterKeyHeld (s.reg x)).skipIf (s.keyHeld (s.reg x)))

/-- SKNP Vx (R251). -/
def execSknp (x : RegIdx) (s : State) : Result :=
  .next ((s.afterKeyHeld (s.reg x)).skipIf (!s.keyHeld (s.reg x)))

/-- LD Vx,DT (R252). -/
def execLdVxDT (x : RegIdx) (s : State) : Result := .next (s.setReg x s.dt).goNext

/-- LD Vx,K (R253): with no key pending nothing changes and the instruction runs again; the pending key is not
consumed (decision D21, log 25). -/
def execLdVxK (x : RegIdx) (s : State) : Result :=
  match s.pending with
  | none => .next s
  | some p => .next (s.setReg x (p.zeroExtend 8)).goNext

/-- LD DT,Vx (R254). -/
def execLdDT (x : RegIdx) (s : State) : Result := .next (s.setDT (s.reg x)).goNext

/-- LD ST,Vx (R255). -/
def execLdST (x : RegIdx) (s : State) : Result := .next (s.setST (s.reg x)).goNext

end Sys2Proof.Machine
end

