-- ==== Sys2Proof/Machine/Step.lean ====
section
/-! DEFINITION. One `step()` of the core (spec/60_exceptions.md R300), and an instruction placed where it is
fetched. -/

namespace Sys2Proof.Machine

/-- `step()` (R300), in R285's order: a Halted core is refused (R286); then the fetch's fault, with no word in the
record (R282); then `UnknownOpcode`; then the instruction. -/
def step (s : State) : Host.Outcome State Fault Refusal :=
  match s.run with
  | .halted => .refused .halted
  | .running =>
    match s.fetch16 with
    | .outOfBounds => .next (s.raise .outOfBounds none)
    | .memoryPort => .fault .memoryPort
    | .word op =>
      match decodeWord op with
      | .error _ => .next (s.raise .unknownOpcode (some op))
      | .ok i => exec i s

/-- The state with an instruction stored at pc and pc + 1, big-endian: bits of `w` from `nbits` up are 0. Nothing
else changes; log 32. -/
def State.withFetchWord (s : State) (nbits w : Nat) : State :=
  { s with mem := s.mem.writeWord s.pc.toNat (BitVec.ofNat 16 (w % 2 ^ nbits)) }

end Sys2Proof.Machine
end

