-- ==== Sys2Proof/Machine/Assembly.lean ====
section
/-! DEFINITION. The assembly text of an instruction (spec/30_encoding.md R82, R83; decision D25): the mnemonic, and
its operands with no space after the comma. -/

namespace Sys2Proof.Machine

/-- A hex digit, capital as in the spec's examples. -/
def hexDigit (n : Nibble) : Char := Nat.digitChar n.toNat |>.toUpper

/-- A register's name, V0 to VF (R82). -/
def asmReg (x : RegIdx) : String := "V" ++ String.singleton (hexDigit x)

/-- An 8-bit immediate, `0x` and two hex digits (R82). -/
def asmByte (b : Byte) : String :=
  "0x" ++ String.singleton (hexDigit (b.extractLsb' 4 4)) ++ String.singleton (hexDigit (b.extractLsb' 0 4))

/-- A 12-bit immediate, `0x` and three hex digits (R82). -/
def asmAddr (a : Addr12) : String :=
  "0x" ++ String.singleton (hexDigit (a.extractLsb' 8 4)) ++ String.singleton (hexDigit (a.extractLsb' 4 4)) ++
    String.singleton (hexDigit (a.extractLsb' 0 4))

/-- DRW's nibble, one hex digit (R82). -/
def asmNibble (n : Nibble) : String := String.singleton (hexDigit n)

/-- Mnemonic and one operand. -/
def asm1 (m a : String) : String := m ++ " " ++ a

/-- Mnemonic and two operands, with no space after the comma (R82). -/
def asm2 (m a b : String) : String := m ++ " " ++ a ++ "," ++ b

/-- The assembly text of an instruction (R82); a decoded SHR or SHL has no y to print (R83). -/
def asm : Instr → String
  | .cls => "CLS"
  | .ret => "RET"
  | .jp nnn => asm1 "JP" (asmAddr nnn)
  | .call nnn => asm1 "CALL" (asmAddr nnn)
  | .seByte x kk => asm2 "SE" (asmReg x) (asmByte kk)
  | .seReg x y => asm2 "SE" (asmReg x) (asmReg y)
  | .sneByte x kk => asm2 "SNE" (asmReg x) (asmByte kk)
  | .sneReg x y => asm2 "SNE" (asmReg x) (asmReg y)
  | .ldByte x kk => asm2 "LD" (asmReg x) (asmByte kk)
  | .ldReg x y => asm2 "LD" (asmReg x) (asmReg y)
  | .addByte x kk => asm2 "ADD" (asmReg x) (asmByte kk)
  | .addReg x y => asm2 "ADD" (asmReg x) (asmReg y)
  | .orReg x y => asm2 "OR" (asmReg x) (asmReg y)
  | .andReg x y => asm2 "AND" (asmReg x) (asmReg y)
  | .xorReg x y => asm2 "XOR" (asmReg x) (asmReg y)
  | .sub x y => asm2 "SUB" (asmReg x) (asmReg y)
  | .subn x y => asm2 "SUBN" (asmReg x) (asmReg y)
  | .shr x => asm1 "SHR" (asmReg x)
  | .shl x => asm1 "SHL" (asmReg x)
  | .ldI nnn => asm2 "LD" "I" (asmAddr nnn)
  | .jpV0 nnn => asm2 "JP" "V0" (asmAddr nnn)
  | .rnd x kk => asm2 "RND" (asmReg x) (asmByte kk)
  | .drw x y n => asm2 "DRW" (asmReg x) (asmReg y) ++ "," ++ asmNibble n
  | .skp x => asm1 "SKP" (asmReg x)
  | .sknp x => asm1 "SKNP" (asmReg x)
  | .ldVxDT x => asm2 "LD" (asmReg x) "DT"
  | .ldVxK x => asm2 "LD" (asmReg x) "K"
  | .ldDT x => asm2 "LD" "DT" (asmReg x)
  | .ldST x => asm2 "LD" "ST" (asmReg x)
  | .addI x => asm2 "ADD" "I" (asmReg x)
  | .ldF x => asm2 "LD" "F" (asmReg x)
  | .ldB x => asm2 "LD" "B" (asmReg x)
  | .stRegs x => asm2 "LD" "[I]" (asmReg x)
  | .ldRegs x => asm2 "LD" (asmReg x) "[I]"

end Sys2Proof.Machine
end

