-- ==== Sys2Proof/Machine/HostPort.lean ====
section
/-! DEFINITION. What the host does between steps (spec/60_exceptions.md R292, R301, R304; 70_reset_and_hazards.md
R320, R322): the timer tick, direct access to DT and ST, the keypad's answers, `reset()`, the launch image; and a
run as a sequence of such actions (R293, R303). -/

namespace Sys2Proof.Machine

/-! ## The timer countdown engine -/

/-- One timer's tick under `TIMER_AT_ZERO` (R292, decision D14, log 13). -/
def tickTimer (p : TimerAtZero) (t : Byte) : Byte :=
  match p with
  | .stop => if t.toNat > 0 then t - 1#8 else t
  | .wrap => t - 1#8

/-- `tick()` (R292): DT and ST together; it does not read `run`. -/
def State.tick (s : State) : State :=
  (s.setDT (tickTimer s.params.timerAtZero s.dt)).setST (tickTimer s.params.timerAtZero s.st)

/-! ## Direct access and the keypad -/

/-- The host reads DT (R301). -/
def State.hostReadDT (s : State) : Byte := s.dt

/-- The host reads ST (R301). -/
def State.hostReadST (s : State) : Byte := s.st

/-- The host writes DT (R301). -/
def State.hostWriteDT (s : State) (b : Byte) : State := s.setDT b

/-- The host writes ST (R301). -/
def State.hostWriteST (s : State) (b : Byte) : State := s.setST b

/-- The keypad's answers from now on (44_keys_timers.md R270, R271): any mask, any pending key, unrelated; log 5. -/
def State.setKeypad (s : State) (mask : BitVec 16) (p : Option Nibble) : State :=
  { s with keys := mask, pending := p }

/-! ## Reset and launch -/

/-- What `RESET_REGS = launch_input` makes inputs of the launch (10_state.md R38). -/
structure LaunchInputs where
  v  : Vector Byte 16
  i  : Word
  dt : Byte
  st : Byte
  fb : FrameBuffer
  deriving DecidableEq, Repr

/-- The launch inputs that `RESET_REGS = zero` stands for (R38, decisions D12 and D23; logs 3 and 4). -/
def LaunchInputs.zero : LaunchInputs :=
  { v := Vector.replicate 16 0, i := 0, dt := 0, st := 0, fb := FrameBuffer.clear }

/-- The registers and pixels a reset loads under each `RESET_REGS` (R38, R240). -/
def resetInputs (p : ResetRegs) (l : LaunchInputs) : LaunchInputs :=
  match p with
  | .zero => LaunchInputs.zero
  | .launchInput => l

/-- `reset(MEM_INIT)` (R320): every field of the core at its value in R38, the memory the image, the display clear
or a launch input; S is 0 under either policy (log 36). The parameters, the keypad's answers and the draw counter are not the core's and stay; log 20. -/
def State.hostReset (s : State) (image : List Byte) (l : LaunchInputs) : State :=
  { v := (resetInputs s.params.resetRegs l).v
    i := (resetInputs s.params.resetRegs l).i
    pc := entryPoint
    stack := Vector.replicate 16 0
    depth := 0
    dt := (resetInputs s.params.resetRegs l).dt
    st := (resetInputs s.params.resetRegs l).st
    run := .running
    fault := none
    mem := Memory.ofBytes 0 image
    fb := (resetInputs s.params.resetRegs l).fb
    keys := s.keys
    pending := s.pending
    draws := s.draws
    params := s.params }

/-- The host's `reset(MEM_INIT)`: `MEM_INIT` is at most the memory's 4096 bytes. A longer image has no state after, as
93_implementation_defined.md U15 (`refuse`) treats a ROM of more than 3584 bytes (70_reset_and_hazards.md R322); the
source is silent on it (91_not_in_source.md N9). DESIGN CHOICE, log 38. -/
def State.resetWithImage (s : State) (image : List Byte) (l : LaunchInputs) : Option State :=
  if image.length ≤ memorySize then some (s.hostReset image l) else none

/-- The number of font bytes: 16 glyphs of 5 bytes (20_memory.md R58). -/
def fontSize : Nat := 80

/-- The glyphs of digits 0 to 7 of the customary font (93_implementation_defined.md GK1). -/
def customaryGlyphsLow : List Byte :=
  [ 0xF0, 0x90, 0x90, 0x90, 0xF0,  0x20, 0x60, 0x20, 0x20, 0x70,  0xF0, 0x10, 0xF0, 0x80, 0xF0,
    0xF0, 0x10, 0xF0, 0x10, 0xF0,  0x90, 0x90, 0xF0, 0x10, 0x10,  0xF0, 0x80, 0xF0, 0x10, 0xF0,
    0xF0, 0x80, 0xF0, 0x90, 0xF0,  0xF0, 0x10, 0x20, 0x40, 0x40 ]

/-- The glyphs of digits 8 to F of the customary font (GK1). -/
def customaryGlyphsHigh : List Byte :=
  [ 0xF0, 0x90, 0xF0, 0x90, 0xF0,  0xF0, 0x90, 0xF0, 0x10, 0xF0,  0xF0, 0x90, 0xF0, 0x90, 0x90,
    0xE0, 0x90, 0xE0, 0x90, 0xE0,  0xF0, 0x80, 0x80, 0x80, 0xF0,  0xE0, 0x90, 0x90, 0x90, 0xE0,
    0xF0, 0x80, 0xF0, 0x80, 0xF0,  0xF0, 0x80, 0xF0, 0x80, 0x80 ]

/-- The customary font: an example of what the host may load at 0x000, not a reset value (GK1). PRESUMED, log 33;
no statement rests on it. -/
def customaryFont : List Byte := customaryGlyphsLow ++ customaryGlyphsHigh

/-- The image the host builds (R59, R322): the font at 0x000, zeros up to 0x200, then the ROM's bytes in order.
The zeros between are the host's choice here, log 33; a claim about launches takes `WellFormedImage` instead. -/
def launchImage (font rom : List Byte) : List Byte :=
  font.take fontSize ++ List.replicate (0x200 - (font.take fontSize).length) 0 ++ rom

/-! ## Runs -/

/-- One transition of the machine or of its host (R303, R304). -/
inductive Action where
  | step
  | tick
  | writeDT (b : Byte)
  | writeST (b : Byte)
  | keypad (mask : BitVec 16) (p : Option Nibble)
  | reset (image : List Byte) (l : LaunchInputs)
  deriving DecidableEq, Repr

/-- The state after a step request: a refused step of a Halted core changes nothing (R286); a form the model gives
no meaning, and an access the memory port does not have, have no state after. -/
def State.afterStep (s : State) : Option State :=
  match step s with
  | .next t => some t
  | .refused .halted => some s
  | .refused .vfAlias => none
  | .refused _ => none
  | .fault _ => none

/-- The state after one action. -/
def State.after (s : State) : Action → Option State
  | .step => s.afterStep
  | .tick => some s.tick
  | .writeDT b => some (s.hostWriteDT b)
  | .writeST b => some (s.hostWriteST b)
  | .keypad mask p => some (s.setKeypad mask p)
  | .reset image l => s.resetWithImage image l

/-- The state after a sequence of actions, in order: every interleaving of steps and ticks is one (R293). -/
def State.afterAll (s : State) : List Action → Option State
  | [] => some s
  | a :: as =>
    match s.after a with
    | some t => t.afterAll as
    | none => none

end Sys2Proof.Machine
end

