-- ==== Sys2Proof/Safety.lean ====
section
/-! DEFINITION. The terms claims use: the spec's outcomes of a step (spec/00_scope.md R11), what stays the same over an
instruction, the tables of which instruction touches what (10_state.md R22, R24, R28, R29, R32), the machine's
invariant, and the launch premises and ends of a run (70_reset_and_hazards.md R328, R329). -/

namespace Sys2Proof.Machine

/-! ## The outcomes of a step (R11) -/

/-- R11's outcomes. A fault's carries the Halted state that the fault entry leaves (60_exceptions.md R283). -/
inductive SpecOutcome where
  | next (s : State)
  | fault (kind : FaultKind) (s : State)
  | refused
  | unmodelled
  deriving DecidableEq, Repr

/-- The step's outcome as R11 names it: the model's step answers a next state for a fault too (log 1), and this
tells the two apart: a Halted state is a fault's, and its record names the kind. -/
def specStep (s : State) : SpecOutcome :=
  match step s with
  | .next t =>
    match t.run, t.fault with
    | .halted, some r => .fault r.kind t
    | .halted, none => .next t
    | .running, _ => .next t
  | .refused .halted => .refused
  | .refused .vfAlias => .unmodelled
  | .refused _ => .unmodelled
  | .fault .memoryPort => .unmodelled

/-! ## What stays the same -/

/-- Every general register, VF among them, is as before. -/
def SameRegs (s t : State) : Prop := ∀ r, t.reg r = s.reg r

/-- I is as before. -/
def SameIndex (s t : State) : Prop := t.i = s.i

/-- SP and every stack entry are as before. -/
def SameStack (s t : State) : Prop := t.depth = s.depth ∧ ∀ k : Fin 16, t.stack[k] = s.stack[k]

/-- DT and ST are as before. -/
def SameTimers (s t : State) : Prop := t.dt = s.dt ∧ t.st = s.st

/-- The run state and the fault record are as before. -/
def SameRun (s t : State) : Prop := t.run = s.run ∧ t.fault = s.fault

/-- Every byte of memory reads as before. -/
def SameMem (s t : State) : Prop := ∀ a, t.mem.read a = s.mem.read a

/-- Every pixel of the display is as before. -/
def SamePixels (s t : State) : Prop := ∀ px py, t.fb.pixel px py = s.fb.pixel px py

/-- The keypad's answers and the launch parameters are as before. -/
def SamePorts (s t : State) : Prop := t.keys = s.keys ∧ t.pending = s.pending ∧ t.params = s.params

/-- All but the general registers, pc and the draw counter is as before: the frame of the instructions that write
only general registers. -/
def OnlyRegsAndPc (s t : State) : Prop :=
  SameIndex s t ∧ SameStack s t ∧ SameTimers s t ∧ SameRun s t ∧ SameMem s t ∧ SamePixels s t ∧ SamePorts s t

/-- All but pc and the draw counter is as before: the frame of the jumps and skips. -/
def OnlyPc (s t : State) : Prop := SameRegs s t ∧ OnlyRegsAndPc s t

/-- All but I and pc is as before: the frame of LD I,addr, ADD I,Vx and LD F,Vx. -/
def OnlyIndexAndPc (s t : State) : Prop :=
  SameRegs s t ∧ SameStack s t ∧ SameTimers s t ∧ SameRun s t ∧ SameMem s t ∧ SamePixels s t ∧ SamePorts s t

/-- All but the memory and pc is as before: the frame of LD B,Vx and LD [I],Vx. -/
def OnlyMemAndPc (s t : State) : Prop :=
  SameRegs s t ∧ SameIndex s t ∧ SameStack s t ∧ SameTimers s t ∧ SameRun s t ∧ SamePixels s t ∧ SamePorts s t

/-- All but the stack and pc is as before: the frame of CALL and RET. -/
def OnlyStackAndPc (s t : State) : Prop :=
  SameRegs s t ∧ SameIndex s t ∧ SameTimers s t ∧ SameRun s t ∧ SameMem s t ∧ SamePixels s t ∧ SamePorts s t

/-- The state in which a fault of the given kind leaves the machine: Halted, with the record written, and everything
else, pc among it, as it was (60_exceptions.md R283). -/
def halts (s : State) (kind : FaultKind) (op : Option Word) : State :=
  { s with run := .halted, fault := some { kind := kind, pc := s.pc, opcode := op } }

/-! ## Words from patterns (30_encoding.md R72, R75, R81) -/

/-- A value shifted into x's place, op[11:8]. -/
def atX (x : RegIdx) : Word := x.zeroExtend 16 <<< 8

/-- A value shifted into y's place, op[7:4]. -/
def atY (y : RegIdx) : Word := y.zeroExtend 16 <<< 4

/-- R81's word: `pattern | (operand values shifted into each operand's mask)`, with R75's patterns. SHR and SHL
have no y to shift in. -/
def wordOf : Instr → Word
  | .cls => 0x00E0#16
  | .ret => 0x00EE#16
  | .jp nnn => 0x1000#16 ||| nnn.zeroExtend 16
  | .call nnn => 0x2000#16 ||| nnn.zeroExtend 16
  | .seByte x kk => 0x3000#16 ||| atX x ||| kk.zeroExtend 16
  | .seReg x y => 0x5000#16 ||| atX x ||| atY y
  | .sneByte x kk => 0x4000#16 ||| atX x ||| kk.zeroExtend 16
  | .sneReg x y => 0x9000#16 ||| atX x ||| atY y
  | .ldByte x kk => 0x6000#16 ||| atX x ||| kk.zeroExtend 16
  | .ldReg x y => 0x8000#16 ||| atX x ||| atY y
  | .addByte x kk => 0x7000#16 ||| atX x ||| kk.zeroExtend 16
  | .addReg x y => 0x8004#16 ||| atX x ||| atY y
  | .orReg x y => 0x8001#16 ||| atX x ||| atY y
  | .andReg x y => 0x8002#16 ||| atX x ||| atY y
  | .xorReg x y => 0x8003#16 ||| atX x ||| atY y
  | .sub x y => 0x8005#16 ||| atX x ||| atY y
  | .subn x y => 0x8007#16 ||| atX x ||| atY y
  | .shr x => 0x8006#16 ||| atX x
  | .shl x => 0x800E#16 ||| atX x
  | .ldI nnn => 0xA000#16 ||| nnn.zeroExtend 16
  | .jpV0 nnn => 0xB000#16 ||| nnn.zeroExtend 16
  | .rnd x kk => 0xC000#16 ||| atX x ||| kk.zeroExtend 16
  | .drw x y n => 0xD000#16 ||| atX x ||| atY y ||| n.zeroExtend 16
  | .skp x => 0xE09E#16 ||| atX x
  | .sknp x => 0xE0A1#16 ||| atX x
  | .ldVxDT x => 0xF007#16 ||| atX x
  | .ldVxK x => 0xF00A#16 ||| atX x
  | .ldDT x => 0xF015#16 ||| atX x
  | .ldST x => 0xF018#16 ||| atX x
  | .addI x => 0xF01E#16 ||| atX x
  | .ldF x => 0xF029#16 ||| atX x
  | .ldB x => 0xF033#16 ||| atX x
  | .stRegs x => 0xF055#16 ||| atX x
  | .ldRegs x => 0xF065#16 ||| atX x

/-! ## Which instruction touches what -/

/-- The general registers an instruction may write (10_state.md R22, column "writes"). -/
def writesReg : Instr → RegIdx → Bool
  | .ldByte x _, r | .ldReg x _, r | .addByte x _, r | .orReg x _, r | .andReg x _, r | .xorReg x _, r
  | .rnd x _, r | .ldVxDT x, r | .ldVxK x, r => r == x
  | .addReg x _, r | .sub x _, r | .subn x _, r | .shr x, r | .shl x, r => r == vf || r == x
  | .drw _ _ _, r => r == vf
  | .ldRegs x, r => decide (r.toNat ≤ x.toNat)
  | .cls, _ | .ret, _ | .jp _, _ | .call _, _ | .seByte _ _, _ | .seReg _ _, _ | .sneByte _ _, _
  | .sneReg _ _, _ | .ldI _, _ | .jpV0 _, _ | .skp _, _ | .sknp _, _ | .ldDT _, _ | .ldST _, _
  | .addI _, _ | .ldF _, _ | .ldB _, _ | .stRegs _, _ => false

/-- The general registers an instruction reads (10_state.md R22, column "reads"). -/
def readsReg : Instr → RegIdx → Bool
  | .seByte x _, r | .sneByte x _, r | .addByte x _, r | .shr x, r | .shl x, r | .skp x, r | .sknp x, r
  | .ldDT x, r | .ldST x, r | .addI x, r | .ldF x, r | .ldB x, r => r == x
  | .seReg x y, r | .sneReg x y, r | .addReg x y, r | .sub x y, r | .subn x y, r | .orReg x y, r
  | .andReg x y, r | .xorReg x y, r | .drw x y _, r => r == x || r == y
  | .ldReg _ y, r => r == y
  | .jpV0 _, r => r == 0x0#4
  | .stRegs x, r => decide (r.toNat ≤ x.toNat)
  | .cls, _ | .ret, _ | .jp _, _ | .call _, _ | .ldByte _ _, _ | .ldI _, _ | .rnd _ _, _ | .ldVxDT _, _
  | .ldVxK _, _ | .ldRegs _, _ => false

/-- The instructions of R24's path "skip". -/
def canSkip : Instr → Bool
  | .seByte _ _ | .seReg _ _ | .sneByte _ _ | .sneReg _ _ | .skp _ | .sknp _ => true
  | .cls | .ret | .jp _ | .call _ | .ldByte _ _ | .ldReg _ _ | .addByte _ _ | .addReg _ _ | .orReg _ _
  | .andReg _ _ | .xorReg _ _ | .sub _ _ | .subn _ _ | .shr _ | .shl _ | .ldI _ | .jpV0 _ | .rnd _ _
  | .drw _ _ _ | .ldVxDT _ | .ldVxK _ | .ldDT _ | .ldST _ | .addI _ | .ldF _ | .ldB _ | .stRegs _
  | .ldRegs _ => false

/-- Does the condition of a skip hold: R24's "when their condition holds" (R104 to R107, R250, R251; `KeyHeld` is
R272's)? -/
def skipHolds (i : Instr) (s : State) : Prop :=
  match i with
  | .seByte x kk => s.reg x = kk
  | .seReg x y => s.reg x = s.reg y
  | .sneByte x kk => s.reg x ≠ kk
  | .sneReg x y => s.reg x ≠ s.reg y
  | .skp x => s.keyHeld (s.reg x) = true
  | .sknp x => s.keyHeld (s.reg x) = false
  | .cls | .ret | .jp _ | .call _ | .ldByte _ _ | .ldReg _ _ | .addByte _ _ | .addReg _ _ | .orReg _ _
  | .andReg _ _ | .xorReg _ _ | .sub _ _ | .subn _ _ | .shr _ | .shl _ | .ldI _ | .jpV0 _ | .rnd _ _
  | .drw _ _ _ | .ldVxDT _ | .ldVxK _ | .ldDT _ | .ldST _ | .addI _ | .ldF _ | .ldB _ | .stRegs _
  | .ldRegs _ => False

/-- The target of R24's path "explicit", for the instructions that take it. -/
def explicitTarget (i : Instr) (s : State) : Option Word :=
  match i with
  | .jp nnn | .call nnn => some (nnn.zeroExtend 16)
  | .jpV0 nnn => some (BitVec.ofNat 16 ((s.reg 0x0#4).toNat + nnn.toNat))
  | .ret => some (s.stack[s.depth.val - 1]'(by have := s.depth.isLt; omega))
  | .cls | .seByte _ _ | .seReg _ _ | .sneByte _ _ | .sneReg _ _ | .ldByte _ _ | .ldReg _ _ | .addByte _ _
  | .addReg _ _ | .orReg _ _ | .andReg _ _ | .xorReg _ _ | .sub _ _ | .subn _ _ | .shr _ | .shl _ | .ldI _
  | .rnd _ _ | .drw _ _ _ | .skp _ | .sknp _ | .ldVxDT _ | .ldVxK _ | .ldDT _ | .ldST _ | .addI _ | .ldF _
  | .ldB _ | .stRegs _ | .ldRegs _ => none

/-- Is the instruction an alias case of 41_alu.md R141? -/
def aliasCase : Instr → Bool
  | .addReg x _ | .shr x | .shl x => x == vf
  | .sub x y | .subn x y | .drw x y _ => x == vf || y == vf
  | .cls | .ret | .jp _ | .call _ | .seByte _ _ | .seReg _ _ | .sneByte _ _ | .sneReg _ _ | .ldByte _ _
  | .ldReg _ _ | .addByte _ _ | .orReg _ _ | .andReg _ _ | .xorReg _ _ | .ldI _ | .jpV0 _ | .rnd _ _
  | .skp _ | .sknp _ | .ldVxDT _ | .ldVxK _ | .ldDT _ | .ldST _ | .addI _ | .ldF _ | .ldB _ | .stRegs _
  | .ldRegs _ => false

/-- A result with one register blanked: two results that agree so differ in that register at most. -/
def blankReg (r : RegIdx) : Result → Result
  | .next t => .next (t.setReg r 0)
  | .fault f => .fault f
  | .refused f => .refused f

/-- A result with ST blanked: two results that agree so differ in the sound timer at most. -/
def blankST : Result → Result
  | .next t => .next (t.setST 0)
  | .fault f => .fault f
  | .refused f => .refused f

/-- The state after a sequence of instructions that all complete, `none` where one stops. -/
def execAll : List Instr → State → Option State
  | [], s => some s
  | i :: is, s =>
    match exec i s with
    | .next t => execAll is t
    | .fault _ => none
    | .refused _ => none

/-! ## The sprite of a DRW (43_display.md R221, R223) -/

/-- Does a set bit of the sprite at I, of n rows drawn at (xo, yo), land on the pixel (px, py)? -/
def SpriteHits (s : State) (xo yo : Byte) (n : Nibble) (px : Fin 64) (py : Fin 32) : Prop :=
  ∃ r c : Nat, r < n.toNat ∧ c < 8 ∧ (s.mem.read (s.i.toNat + r)).getLsbD (7 - c) = true ∧
    px.val = (xo.toNat + c) % 64 ∧ py.val = (yo.toNat + r) % 32

/-! ## The invariant -/

/-- What every transition keeps: memory in its canonical form; Halted exactly when a fault is recorded (10_state.md
R33); and the bounds of R26: pc at most 0x10FE, and every stack entry an address that a CALL pushed. -/
structure State.Inv (s : State) : Prop where
  memory : s.mem.wf = true
  halted : s.run = .halted ↔ s.fault.isSome = true
  pc     : s.pc.toNat ≤ 0x10FE
  stack  : ∀ k : Fin 16, s.stack[k].toNat ≤ 0xFFF

/-- Under `mask12` and `fault`, I never leaves the memory (42_index_memory.md R192). -/
def State.IndexBounded (s : State) : Prop := s.params.iAdd ≠ .keep16 → s.i.toNat ≤ 0xFFF

/-! ## Launches and ends of a run (70_reset_and_hazards.md R328, R329) -/

/-- `WellFormedImage` (R321, R329): the font's bytes at 0x000, the ROM's, at most 3584 of them, at 0x200. The source
gives no glyph bytes (20_memory.md R59), so the font is any 80 bytes. -/
def WellFormedImage (m : Memory) (font rom : List Byte) : Prop :=
  font.length = fontSize ∧ rom.length ≤ 3584 ∧
    (∀ k (h : k < font.length), m.read k = font[k]) ∧ (∀ k (h : k < rom.length), m.read (0x200 + k) = rom[k])

/-- `ResetState` (R329): every field of the core and the display as 10_state.md R38 gives it. V, I, DT, ST and the
pixels are 0 under `RESET_REGS = zero` and any value, the launch's inputs, under `launch_input`; M is any `MEM_INIT`.
S is 0 under either (log 36). -/
structure ResetState (s : State) : Prop where
  pc     : s.pc = entryPoint
  sp     : s.sp = -1
  run    : s.run = .running
  fault  : s.fault = none
  stack  : ∀ k : Fin 16, s.stack[k] = 0
  regs   : s.params.resetRegs = .zero → ∀ r, s.reg r = 0
  index  : s.params.resetRegs = .zero → s.i = 0
  timers : s.params.resetRegs = .zero → s.dt = 0 ∧ s.st = 0
  pixels : s.params.resetRegs = .zero → ∀ px py, s.fb.pixel px py = false

/-- `NoFault` (R329). -/
def NoFault (s : State) : Prop := s.run = .running

/-- The run has reached `END_PC`: pc is there and the word there is a JP to itself (R328, decision D24). -/
def AtEnd (endPc : Word) (s : State) : Prop :=
  s.pc = endPc ∧ ∃ op nnn, s.fetch16 = .word op ∧ decodeWord op = .ok (.jp nnn) ∧ nnn.zeroExtend 16 = endPc

/-- The number of step requests in a sequence of actions: R328's step count. -/
def stepCount : List Action → Nat
  | [] => 0
  | .step :: as => stepCount as + 1
  | .tick :: as => stepCount as
  | .writeDT _ :: as => stepCount as
  | .writeST _ :: as => stepCount as
  | .keypad _ _ :: as => stepCount as
  | .reset _ _ :: as => stepCount as

/-- The run first reaches `END_PC` with these actions (R328). -/
def EndsAt (endPc : Word) (s : State) (as : List Action) (t : State) : Prop :=
  s.afterAll as = some t ∧ AtEnd endPc t ∧
    ∀ bs, bs <+: as → bs ≠ as → ∀ u, s.afterAll bs = some u → ¬ AtEnd endPc u

end Sys2Proof.Machine
end

