-- ==== Sys2Proof/Certificates/Slice0/Obligations.lean ====
section
/-! DEFINITION. The statements for the provers, each from the rules of spec/ that its docstring names. `exec` answers
a next state for a fault too, the Halted state of `halts` (log 1). A rule's "Encoding" line is R75's row; all rows but
3, 9 and 11 are the spec's general knowledge (log 14). -/

open Sys2Proof Sys2Proof.Machine

/-! ## Encoding (30_encoding.md) -/

/-- The words of the spec's examples decode to their instructions: §8's 6005, 7003 and 1200 (R71), 95's W5, and E19E,
R250's example (R75 row 24). The patterns but for §8's words are the spec's general knowledge (D2, log 14). -/
def Obligations.DecodesExampleWords : Prop :=
  decodeWord 0x6005#16 = .ok (.ldByte 0x0#4 0x05#8) ∧ decodeWord 0x7003#16 = .ok (.addByte 0x0#4 0x03#8) ∧
  decodeWord 0x1200#16 = .ok (.jp 0x200#12) ∧ decodeWord 0xD345#16 = .ok (.drw 0x3#4 0x4#4 0x5#4) ∧
  decodeWord 0x8AB5#16 = .ok (.sub 0xA#4 0xB#4) ∧ decodeWord 0xFF33#16 = .ok (.ldB 0xF#4) ∧
  decodeWord 0x8AF6#16 = .ok (.shr 0xA#4) ∧ decodeWord 0xE19E#16 = .ok (.skp 0x1#4)

/-- R81, whole: a word built as pattern or operand values shifted into place decodes to the same instruction with the
same operands; any y of SHR and SHL decodes to the same row; and re-encoding a decoded word gives it back, up to the
y field of the XS rows. -/
def Obligations.DecodingRoundTrip : Prop :=
  (∀ i, decodeWord (wordOf i) = .ok i) ∧
  (∀ x y, decodeWord (wordOf (.shr x) ||| atY y) = .ok (.shr x) ∧
    decodeWord (wordOf (.shl x) ||| atY y) = .ok (.shl x)) ∧
  (∀ op i, decodeWord op = .ok i → encode i = if i.isXS then clearY op else op)

/-- Decode and encode agree on every instruction and every operand, and the encoder writes R75's patterns. -/
def Obligations.DecodeOfEncode : Prop :=
  ∀ i, decodeWord (encode i) = .ok i ∧ encode i = wordOf i

/-- R77: the two-level dispatch gives, on all 65536 words, the result of R74's scan of the descriptor table in its
order. (R77 is marked derived.) -/
def Obligations.DispatchIsTableScan : Prop := ∀ op, decodeWord op = scanWord op

/-- R76: no word matches two rows of the table. (R76 is marked derived.) -/
def Obligations.TableRowsDoNotOverlap : Prop := ∀ op, (descriptors.filter fun d => d.hits op).length ≤ 1

/-- R79's table: a word is refused, by name and with the word, exactly when it is listed as unassigned. (R79 rests on
decision D3, log 14.) -/
def Obligations.RefusesExactlyUnassignedWords : Prop :=
  ∀ op, (wordWellFormed op = false → decodeWord op = .error (.unknownOpcode op)) ∧
    (wordWellFormed op = true → ∃ i, decodeWord op = .ok i)

/-- R72's table: each operand field is (op and argMask) shifted right by argShift, zero-extended. (The masks are the
spec's general knowledge, GK3, log 14.) -/
def Obligations.FieldsAreMaskAndShift : Prop :=
  ∀ op : Word,
    (fieldX op).zeroExtend 16 = (op &&& 0x0F00#16) >>> 8 ∧ (fieldY op).zeroExtend 16 = (op &&& 0x00F0#16) >>> 4 ∧
    (fieldN op).zeroExtend 16 = op &&& 0x000F#16 ∧ (fieldKK op).zeroExtend 16 = op &&& 0x00FF#16 ∧
    (fieldNNN op).zeroExtend 16 = op &&& 0x0FFF#16

/-! ## The step and the faults (60_exceptions.md, 20_memory.md) -/

/-- A step of a Running core whose bytes at pc and pc + 1, big-endian, decode to an instruction is that instruction's
`exec`; the step adds nothing around it. Under `ODD_PC_POLICY = fault` the pc is even. -/
def Obligations.StepRunsDecodedInstruction : Prop :=
  ∀ s i, s.run = .running → s.pc.toNat ≤ 0xFFD → (s.params.oddPc = .fetch ∨ s.pc.toNat % 2 = 0) →
    decodeWord (s.mem.read s.pc.toNat ++ s.mem.read (s.pc.toNat + 1)) = .ok i → step s = exec i s

/-- The fetch's and the decoder's faults are taken (R55, R281, R285): pc above 0xFFD, or odd under
`ODD_PC_POLICY = fault`, whatever memory holds, with no word in the record; else an unassigned word, with it. (R55
rests on decision D6, log 12.) -/
def Obligations.StepTakesFetchAndDecodeFaults : Prop :=
  ∀ s, s.run = .running →
    (s.pc.toNat > 0xFFD → step s = .next (halts s .outOfBounds none)) ∧
    (s.params.oddPc = .fault → s.pc.toNat % 2 = 1 → step s = .next (halts s .outOfBounds none)) ∧
    (s.pc.toNat ≤ 0xFFD → (s.params.oddPc = .fetch ∨ s.pc.toNat % 2 = 0) →
      wordWellFormed (s.mem.read s.pc.toNat ++ s.mem.read (s.pc.toNat + 1)) = false →
      step s = .next (halts s .unknownOpcode (some (s.mem.read s.pc.toNat ++ s.mem.read (s.pc.toNat + 1)))))

/-- A step of a Halted core is refused and changes nothing, whatever else the state holds (R286, decision D16). -/
def Obligations.HaltedStepIsRefused : Prop :=
  ∀ s, s.run = .halted → step s = .refused .halted ∧ specStep s = .refused ∧ s.after .step = some s

/-- R283: a step that faults leaves Halted and the record, and changes nothing else: pc, registers, SP and S, DT and
ST, memory and the display are as before. Which word the record holds, the fetched one or none when the fetch itself
faulted, is R282's, decision D17; that the model writes it by encoding the instruction is log 22. -/
def Obligations.FaultsArePrecise : Prop :=
  ∀ s t, s.run = .running → step s = .next t → t.run = .halted →
    ∃ kind, (s.fetch16 = .outOfBounds ∧ kind = .outOfBounds ∧ t = halts s kind none) ∨
      (∃ op, s.fetch16 = .word op ∧ t = halts s kind (some op))

/-- R11: a step of a Halted core is Refused; a step of a Running core ends in Next with a Running state or in a Fault
that leaves the Halted state of R283; and the fourth outcome, Unmodelled, is only for an alias case under
`VF_ALIAS_POLICY = refuse`. -/
def Obligations.StepHasSpecOutcome : Prop :=
  ∀ s, (s.run = .halted ∧ specStep s = .refused) ∨
    (s.run = .running ∧
      ((∃ t, t.run = .running ∧ specStep s = .next t) ∨
       (∃ kind op, specStep s = .fault kind (halts s kind op)) ∨
       (specStep s = .unmodelled ∧ s.params.vfAlias = .refuse ∧
         ∃ op i, s.fetch16 = .word op ∧ decodeWord op = .ok i ∧ aliasCase i = true)))

/-- R52: the core never presents an address above 0xFFF to the memory port, whatever the state. (R52 rests on
decisions D9 and D28.) -/
def Obligations.MemoryPortNeverSeesBadAddress : Prop :=
  (∀ i s, exec i s ≠ .fault .memoryPort) ∧ (∀ s, step s ≠ .fault .memoryPort)

/-- R64: the two bytes that LD [I],Vx stores at the address of the next instruction are the word the very next fetch
gives. (R64 is marked derived; canonical memory is the invariant of `StepKeepsInvariant`.) -/
def Obligations.StoreIsSeenByNextFetch : Prop :=
  ∀ s x, s.mem.wf = true → s.run = .running → s.params.oddPc = .fetch → 1 ≤ x.toNat →
    s.i = s.pc + 2#16 → s.i.toNat + x.toNat ≤ 0xFFF → s.i.toNat ≤ 0xFFD →
    ∃ t, exec (.stRegs x) s = .next t ∧ t.fetch16 = .word (s.reg 0x0#4 ++ s.reg 0x1#4)

/-! ## Control flow (40_control_flow.md) -/

/-- R102: JP addr sets pc to nnn and changes nothing else. -/
def Obligations.JumpSetsPc : Prop :=
  ∀ nnn s, encode (.jp nnn) = 0x1#4 ++ nnn ∧
    ∃ t, exec (.jp nnn) s = .next t ∧ t.pc.toNat = nnn.toNat ∧ OnlyPc s t

/-- R103: CALL addr pushes pc + 2 above the top of the stack, every other entry as before, and sets pc to nnn; with
SP = 15 it faults `StackOverflow` and pc, SP and S are unchanged. -/
def Obligations.CallPushesReturnAddress : Prop :=
  ∀ nnn s, encode (.call nnn) = 0x2#4 ++ nnn ∧
    (s.sp < 15 → ∃ t, exec (.call nnn) s = .next t ∧ t.pc.toNat = nnn.toNat ∧ t.sp = s.sp + 1 ∧
      (∀ k : Fin 16, t.stack[k] = if (k.val : Int) = s.sp + 1 then s.pc + 2#16 else s.stack[k]) ∧
      OnlyStackAndPc s t) ∧
    (s.sp = 15 → exec (.call nnn) s = .next (halts s .stackOverflow (some (encode (.call nnn)))))

/-- R101: RET sets pc to the entry at SP and lowers SP, every entry keeping its value; with SP = −1 it faults
`StackUnderflow` and pc, SP and S are unchanged. -/
def Obligations.ReturnPopsAddress : Prop :=
  ∀ s, encode .ret = 0x00EE#16 ∧
    (∀ k : Fin 16, (k.val : Int) = s.sp → ∃ t, exec .ret s = .next t ∧ t.pc = s.stack[k] ∧ t.sp = s.sp - 1 ∧
      (∀ j : Fin 16, t.stack[j] = s.stack[j]) ∧ OnlyStackAndPc s t) ∧
    (s.sp = -1 → exec .ret s = .next (halts s .stackUnderflow (some (encode .ret))))

/-- R109: after a CALL at address a, a RET in any state whose SP and top entry are as the CALL left them sets pc to
a + 2. (R109 is marked derived.) -/
def Obligations.CallThenReturn : Prop :=
  ∀ nnn s, s.sp < 15 → ∃ t, exec (.call nnn) s = .next t ∧
    ∀ u : State, u.sp = t.sp → (∀ k : Fin 16, (k.val : Int) = t.sp → u.stack[k] = t.stack[k]) →
      ∃ w, exec .ret u = .next w ∧ w.pc = s.pc + 2#16 ∧ w.sp = s.sp

/-- R103's corner case, R325: from an empty stack any 16 CALLs succeed, and the 17th faults `StackOverflow`. (R325 is
marked derived.) -/
def Obligations.SixteenCallsFillStack : Prop :=
  ∀ (targets : List Addr12) (s : State), targets.length = 16 → s.sp = -1 →
    ∃ t, execAll (targets.map Instr.call) s = some t ∧ t.sp = 15 ∧ t.run = s.run ∧
      ∀ nnn, exec (.call nnn) t = .next (halts t .stackOverflow (some (encode (.call nnn))))

/-- R104, R105, R106, R107: SE and SNE advance pc by 4 when their condition holds, else by 2, and change nothing
else. -/
def Obligations.SkipsOnComparison : Prop :=
  ∀ (x y : RegIdx) (kk : Byte) (s : State),
    (encode (.seByte x kk) = 0x3#4 ++ x ++ kk ∧ encode (.seReg x y) = 0x5#4 ++ x ++ y ++ 0x0#4 ∧
     encode (.sneByte x kk) = 0x4#4 ++ x ++ kk ∧ encode (.sneReg x y) = 0x9#4 ++ x ++ y ++ 0x0#4) ∧
    (∃ t, exec (.seByte x kk) s = .next t ∧ t.pc = s.pc + (if s.reg x = kk then 4#16 else 2#16) ∧ OnlyPc s t) ∧
    (∃ t, exec (.seReg x y) s = .next t ∧ t.pc = s.pc + (if s.reg x = s.reg y then 4#16 else 2#16) ∧ OnlyPc s t) ∧
    (∃ t, exec (.sneByte x kk) s = .next t ∧ t.pc = s.pc + (if s.reg x ≠ kk then 4#16 else 2#16) ∧ OnlyPc s t) ∧
    (∃ t, exec (.sneReg x y) s = .next t ∧ t.pc = s.pc + (if s.reg x ≠ s.reg y then 4#16 else 2#16) ∧ OnlyPc s t)

/-- R108: JP V0,addr sets pc to V0 + nnn, which is not masked to 12 bits (decision D8, log 16), and changes nothing
else. -/
def Obligations.JumpWithOffset : Prop :=
  ∀ nnn s, ∃ t, exec (.jpV0 nnn) s = .next t ∧ t.pc.toNat = (s.reg 0x0#4).toNat + nnn.toNat ∧ OnlyPc s t

/-! ## Registers, arithmetic and logic (41_alu.md) -/

/-- R142, R143, R144: LD Vx,byte, LD Vx,Vy and ADD Vx,byte write Vx alone, ADD modulo 256 and with no flag. -/
def Obligations.LoadsAndAddImmediate : Prop :=
  ∀ (x y : RegIdx) (kk : Byte) (s : State),
    (encode (.ldByte x kk) = 0x6#4 ++ x ++ kk ∧ encode (.ldReg x y) = 0x8#4 ++ x ++ y ++ 0x0#4 ∧
     encode (.addByte x kk) = 0x7#4 ++ x ++ kk) ∧
    (∃ t, exec (.ldByte x kk) s = .next t ∧ (∀ r, t.reg r = if r = x then kk else s.reg r) ∧
      t.pc = s.pc + 2#16 ∧ OnlyRegsAndPc s t) ∧
    (∃ t, exec (.ldReg x y) s = .next t ∧ (∀ r, t.reg r = if r = x then s.reg y else s.reg r) ∧
      t.pc = s.pc + 2#16 ∧ OnlyRegsAndPc s t) ∧
    (∃ t, exec (.addByte x kk) s = .next t ∧ (t.reg x).toNat = ((s.reg x).toNat + kk.toNat) % 256 ∧
      (∀ r, r ≠ x → t.reg r = s.reg r) ∧ t.pc = s.pc + 2#16 ∧ OnlyRegsAndPc s t)

/-- R146, R147, R148: OR, AND and XOR combine Vx and Vy bit by bit into Vx; VF is unchanged unless x = F. -/
def Obligations.BitwiseLogic : Prop :=
  ∀ (x y : RegIdx) (s : State),
    (encode (.orReg x y) = 0x8#4 ++ x ++ y ++ 0x1#4 ∧ encode (.andReg x y) = 0x8#4 ++ x ++ y ++ 0x2#4 ∧
     encode (.xorReg x y) = 0x8#4 ++ x ++ y ++ 0x3#4) ∧
    (∃ t, exec (.orReg x y) s = .next t ∧
      (∀ k, (t.reg x).getLsbD k = ((s.reg x).getLsbD k || (s.reg y).getLsbD k)) ∧
      (∀ r, r ≠ x → t.reg r = s.reg r) ∧ t.pc = s.pc + 2#16 ∧ OnlyRegsAndPc s t) ∧
    (∃ t, exec (.andReg x y) s = .next t ∧
      (∀ k, (t.reg x).getLsbD k = ((s.reg x).getLsbD k && (s.reg y).getLsbD k)) ∧
      (∀ r, r ≠ x → t.reg r = s.reg r) ∧ t.pc = s.pc + 2#16 ∧ OnlyRegsAndPc s t) ∧
    (∃ t, exec (.xorReg x y) s = .next t ∧
      (∀ k, (t.reg x).getLsbD k = ((s.reg x).getLsbD k ^^ (s.reg y).getLsbD k)) ∧
      (∀ r, r ≠ x → t.reg r = s.reg r) ∧ t.pc = s.pc + 2#16 ∧ OnlyRegsAndPc s t)

/-- R145, for x not F (x = F is `AliasedFlagLatched`): ADD Vx,Vy leaves the sum modulo 256 in Vx and in VF 1 exactly
when the sum is above 255; y = F uses the old VF. -/
def Obligations.AddRegistersWithCarry : Prop :=
  ∀ (x y : RegIdx) (s : State), x ≠ vf →
    encode (.addReg x y) = 0x8#4 ++ x ++ y ++ 0x4#4 ∧
    ∃ t, exec (.addReg x y) s = .next t ∧
      (t.reg x).toNat = ((s.reg x).toNat + (s.reg y).toNat) % 256 ∧
      t.reg vf = (if (s.reg x).toNat + (s.reg y).toNat > 255 then 1 else 0) ∧
      (∀ r, r ≠ x → r ≠ vf → t.reg r = s.reg r) ∧ t.pc = s.pc + 2#16 ∧ OnlyRegsAndPc s t

/-- R149 and R150, for x and y not F (the others are `AliasedFlagLatched`): SUB leaves Vx − Vy and SUBN Vy − Vx,
modulo 256, and VF is 1 exactly when nothing was borrowed. -/
def Obligations.SubtractWithNotBorrow : Prop :=
  ∀ (x y : RegIdx) (s : State), x ≠ vf → y ≠ vf →
    (encode (.sub x y) = 0x8#4 ++ x ++ y ++ 0x5#4 ∧ encode (.subn x y) = 0x8#4 ++ x ++ y ++ 0x7#4) ∧
    (∃ t, exec (.sub x y) s = .next t ∧
      ((t.reg x).toNat : Int) = ((s.reg x).toNat - (s.reg y).toNat : Int) % 256 ∧
      t.reg vf = (if (s.reg x).toNat ≥ (s.reg y).toNat then 1 else 0) ∧
      (∀ r, r ≠ x → r ≠ vf → t.reg r = s.reg r) ∧ t.pc = s.pc + 2#16 ∧ OnlyRegsAndPc s t) ∧
    (∃ t, exec (.subn x y) s = .next t ∧
      ((t.reg x).toNat : Int) = ((s.reg y).toNat - (s.reg x).toNat : Int) % 256 ∧
      t.reg vf = (if (s.reg y).toNat ≥ (s.reg x).toNat then 1 else 0) ∧
      (∀ r, r ≠ x → r ≠ vf → t.reg r = s.reg r) ∧ t.pc = s.pc + 2#16 ∧ OnlyRegsAndPc s t)

/-- R151 and R152, for x not F (x = F is `AliasedFlagLatched`): SHR halves Vx with the old bit 0 in VF, SHL doubles
Vx modulo 256 with the old bit 7 in VF, and Vy is never read. -/
def Obligations.ShiftsByOne : Prop :=
  ∀ (x : RegIdx) (s : State), x ≠ vf →
    (encode (.shr x) = 0x8#4 ++ x ++ 0x0#4 ++ 0x6#4 ∧ encode (.shl x) = 0x8#4 ++ x ++ 0x0#4 ++ 0xE#4) ∧
    (∃ t, exec (.shr x) s = .next t ∧ (t.reg x).toNat = (s.reg x).toNat / 2 ∧
      (t.reg vf).toNat = (s.reg x).toNat % 2 ∧
      (∀ r, r ≠ x → r ≠ vf → t.reg r = s.reg r) ∧ t.pc = s.pc + 2#16 ∧ OnlyRegsAndPc s t) ∧
    (∃ t, exec (.shl x) s = .next t ∧ (t.reg x).toNat = (s.reg x).toNat * 2 % 256 ∧
      (t.reg vf).toNat = (s.reg x).toNat / 128 ∧
      (∀ r, r ≠ x → r ≠ vf → t.reg r = s.reg r) ∧ t.pc = s.pc + 2#16 ∧ OnlyRegsAndPc s t)

/-- R141's third column, the model's and the spec's choice `latched` (decision D5, log 10): with x = F the result of
ADD, SUB, SUBN, SHR and SHL stays in VF; with y = F and x not F, SUB and SUBN use the old VF and leave the flag in
VF. -/
def Obligations.AliasedFlagLatched : Prop :=
  ∀ (x y : RegIdx) (s : State), s.params.vfAlias = .latched →
    (∃ t, exec (.addReg vf y) s = .next t ∧ (t.reg vf).toNat = ((s.reg vf).toNat + (s.reg y).toNat) % 256 ∧
      (∀ r, r ≠ vf → t.reg r = s.reg r) ∧ t.pc = s.pc + 2#16 ∧ OnlyRegsAndPc s t) ∧
    (∃ t, exec (.sub vf y) s = .next t ∧
      ((t.reg vf).toNat : Int) = ((s.reg vf).toNat - (s.reg y).toNat : Int) % 256 ∧
      (∀ r, r ≠ vf → t.reg r = s.reg r) ∧ t.pc = s.pc + 2#16 ∧ OnlyRegsAndPc s t) ∧
    (∃ t, exec (.subn vf y) s = .next t ∧
      ((t.reg vf).toNat : Int) = ((s.reg y).toNat - (s.reg vf).toNat : Int) % 256 ∧
      (∀ r, r ≠ vf → t.reg r = s.reg r) ∧ t.pc = s.pc + 2#16 ∧ OnlyRegsAndPc s t) ∧
    (∃ t, exec (.shr vf) s = .next t ∧ (t.reg vf).toNat = (s.reg vf).toNat / 2 ∧
      (∀ r, r ≠ vf → t.reg r = s.reg r) ∧ t.pc = s.pc + 2#16 ∧ OnlyRegsAndPc s t) ∧
    (∃ t, exec (.shl vf) s = .next t ∧ (t.reg vf).toNat = (s.reg vf).toNat * 2 % 256 ∧
      (∀ r, r ≠ vf → t.reg r = s.reg r) ∧ t.pc = s.pc + 2#16 ∧ OnlyRegsAndPc s t) ∧
    (x ≠ vf → ∃ t, exec (.sub x vf) s = .next t ∧
      ((t.reg x).toNat : Int) = ((s.reg x).toNat - (s.reg vf).toNat : Int) % 256 ∧
      t.reg vf = (if (s.reg x).toNat ≥ (s.reg vf).toNat then 1 else 0) ∧
      (∀ r, r ≠ x → r ≠ vf → t.reg r = s.reg r) ∧ t.pc = s.pc + 2#16 ∧ OnlyRegsAndPc s t) ∧
    (x ≠ vf → ∃ t, exec (.subn x vf) s = .next t ∧
      ((t.reg x).toNat : Int) = ((s.reg vf).toNat - (s.reg x).toNat : Int) % 256 ∧
      t.reg vf = (if (s.reg vf).toNat ≥ (s.reg x).toNat then 1 else 0) ∧
      (∀ r, r ≠ x → r ≠ vf → t.reg r = s.reg r) ∧ t.pc = s.pc + 2#16 ∧ OnlyRegsAndPc s t)

/-- R141's `refuse`: an instruction is refused exactly when the policy is `refuse` and it is a case of R141's table,
and then as `Unmodelled(VFAlias)`. (R141 rests on decision D5, log 10.) -/
def Obligations.RefusesExactlyAliasCases : Prop :=
  ∀ i s, (s.params.vfAlias = .refuse ∧ aliasCase i = true → exec i s = .refused .vfAlias) ∧
    (∀ r, exec i s = .refused r → s.params.vfAlias = .refuse ∧ aliasCase i = true)

/-- R153: RND Vx,byte writes Rand() and kk to Vx, so Vx is a sub-mask of kk, and nothing else but pc. Rand() is a free
value (R154, decision D20): the statement holds whatever it is. That it is `Config.randByte` of the draw counter, and
that the counter moves on, is the model's own way of drawing (log 6). -/
def Obligations.RandomUnderMask : Prop :=
  ∀ (x : RegIdx) (kk : Byte) (s : State), encode (.rnd x kk) = 0xC#4 ++ x ++ kk ∧
    ∃ t, exec (.rnd x kk) s = .next t ∧
      (∀ k, (t.reg x).getLsbD k = ((Config.randByte s.draws).getLsbD k && kk.getLsbD k)) ∧
      (∀ r, r ≠ x → t.reg r = s.reg r) ∧ t.pc = s.pc + 2#16 ∧ OnlyRegsAndPc s t ∧ t.draws ≠ s.draws

/-! ## The index register and memory (42_index_memory.md) -/

/-- R191: LD I,addr sets I to nnn and changes nothing else but pc. -/
def Obligations.LoadIndex : Prop :=
  ∀ nnn s, encode (.ldI nnn) = 0xA#4 ++ nnn ∧
    ∃ t, exec (.ldI nnn) s = .next t ∧ t.i.toNat = nnn.toNat ∧ t.pc = s.pc + 2#16 ∧ OnlyIndexAndPc s t

/-- R192: ADD I,Vx under each `I_ADD_POLICY` (decision D7, log 11); VF is unchanged. -/
def Obligations.AddToIndex : Prop :=
  ∀ (x : RegIdx) (s : State),
    (s.params.iAdd = .keep16 → ∃ t, exec (.addI x) s = .next t ∧
      t.i.toNat = (s.i.toNat + (s.reg x).toNat) % 2 ^ 16 ∧ t.pc = s.pc + 2#16 ∧ OnlyIndexAndPc s t) ∧
    (s.params.iAdd = .mask12 → ∃ t, exec (.addI x) s = .next t ∧
      t.i.toNat = (s.i.toNat + (s.reg x).toNat) % 2 ^ 12 ∧ t.pc = s.pc + 2#16 ∧ OnlyIndexAndPc s t) ∧
    (s.params.iAdd = .fault → s.i.toNat + (s.reg x).toNat ≤ 0xFFF → ∃ t, exec (.addI x) s = .next t ∧
      t.i.toNat = s.i.toNat + (s.reg x).toNat ∧ t.pc = s.pc + 2#16 ∧ OnlyIndexAndPc s t) ∧
    (s.params.iAdd = .fault → s.i.toNat + (s.reg x).toNat > 0xFFF →
      exec (.addI x) s = .next (halts s .outOfBounds (some (encode (.addI x)))))

/-- R193: LD F,Vx sets I to five times a digit and changes nothing else but pc; above 0xF it faults `InvalidDigit`
and I is unchanged. -/
def Obligations.FontAddressOfDigit : Prop :=
  ∀ (x : RegIdx) (s : State), encode (.ldF x) = 0xF#4 ++ x ++ 0x29#8 ∧
    ((s.reg x).toNat ≤ 0xF → ∃ t, exec (.ldF x) s = .next t ∧ t.i.toNat = (s.reg x).toNat * 5 ∧
      t.pc = s.pc + 2#16 ∧ OnlyIndexAndPc s t) ∧
    ((s.reg x).toNat > 0xF → exec (.ldF x) s = .next (halts s .invalidDigit (some (encode (.ldF x)))))

/-- R194: LD B,Vx stores the three decimal digits of Vx at the effective addresses I, I + 1 and I + 2, every other
byte of memory as before, and changes nothing else but pc, I not among it (decision D22, log 19); when I + 2 is above 0xFFF it faults `OutOfBounds` with
memory unchanged. Canonical memory is the invariant of `StepKeepsInvariant`. -/
def Obligations.StoreDecimalDigits : Prop :=
  ∀ (x : RegIdx) (s : State), encode (.ldB x) = 0xF#4 ++ x ++ 0x33#8 ∧
    (s.mem.wf = true → s.i.toNat + 2 ≤ 0xFFF → ∃ t, exec (.ldB x) s = .next t ∧
      (t.mem.read (s.ea 0)).toNat = (s.reg x).toNat / 100 ∧
      (t.mem.read (s.ea 1)).toNat = (s.reg x).toNat / 10 % 10 ∧
      (t.mem.read (s.ea 2)).toNat = (s.reg x).toNat % 10 ∧
      (∀ a, a < s.ea 0 ∨ s.ea 2 < a → t.mem.read a = s.mem.read a) ∧
      t.pc = s.pc + 2#16 ∧ OnlyMemAndPc s t) ∧
    (s.i.toNat + 2 > 0xFFF → exec (.ldB x) s = .next (halts s .outOfBounds (some (encode (.ldB x)))))

/-- R195: LD [I],Vx stores V0 to Vx at the effective addresses I to I + x, every other byte of memory as before, and
changes nothing else but pc, I not among it (decision D22, log 19); when I + x is above 0xFFF it faults `OutOfBounds`
with memory unchanged. Canonical memory is the invariant of `StepKeepsInvariant`. -/
def Obligations.StoreRegisterBlock : Prop :=
  ∀ (x : RegIdx) (s : State),
    (s.mem.wf = true → s.i.toNat + x.toNat ≤ 0xFFF → ∃ t, exec (.stRegs x) s = .next t ∧
      (∀ r : RegIdx, r.toNat ≤ x.toNat → t.mem.read (s.ea r.toNat) = s.reg r) ∧
      (∀ a, a < s.ea 0 ∨ s.ea x.toNat < a → t.mem.read a = s.mem.read a) ∧
      t.pc = s.pc + 2#16 ∧ OnlyMemAndPc s t) ∧
    (s.i.toNat + x.toNat > 0xFFF →
      exec (.stRegs x) s = .next (halts s .outOfBounds (some (encode (.stRegs x)))))

/-- R196: LD Vx,[I] loads V0 to Vx from the effective addresses I to I + x, every other register as before, and
changes nothing else but pc, I not among it (decision D22, log 19); when I + x is above 0xFFF it faults `OutOfBounds`
with the registers unchanged. -/
def Obligations.LoadRegisterBlock : Prop :=
  ∀ (x : RegIdx) (s : State),
    (s.i.toNat + x.toNat ≤ 0xFFF → ∃ t, exec (.ldRegs x) s = .next t ∧
      (∀ r : RegIdx, t.reg r = if r.toNat ≤ x.toNat then s.mem.read (s.ea r.toNat) else s.reg r) ∧
      t.pc = s.pc + 2#16 ∧ OnlyRegsAndPc s t) ∧
    (s.i.toNat + x.toNat > 0xFFF →
      exec (.ldRegs x) s = .next (halts s .outOfBounds (some (encode (.ldRegs x)))))

/-! ## The display (43_display.md) -/

/-- R220: CLS leaves every pixel 0 and changes nothing else but pc. -/
def Obligations.ClearDisplay : Prop :=
  ∀ s, encode .cls = 0x00E0#16 ∧
    ∃ t, exec .cls s = .next t ∧ (∀ px py, t.fb.pixel px py = false) ∧ t.pc = s.pc + 2#16 ∧ SameRegs s t ∧
      SameIndex s t ∧ SameStack s t ∧ SameTimers s t ∧ SameRun s t ∧ SameMem s t ∧ SamePorts s t

/-- R221 to R225: DRW toggles exactly the pixels that a set bit of the sprite lands on, the coordinates wrapping and
taken before VF is written, and VF is 1 exactly when one of those pixels was on; it changes nothing else but pc. An
alias case runs unless the policy refuses it (log 10). (R224 is marked derived, n = 0 is decision D9, log 17.) -/
def Obligations.DrawTogglesSpritePixels : Prop :=
  ∀ (x y : RegIdx) (n : Nibble) (s : State),
    ¬ (s.params.vfAlias = .refuse ∧ aliasCase (.drw x y n) = true) →
    (n.toNat = 0 ∨ s.i.toNat + n.toNat - 1 ≤ 0xFFF) →
    ∃ t, exec (.drw x y n) s = .next t ∧
      (∀ px py, t.fb.pixel px py = true ↔
        ¬ (s.fb.pixel px py = true ↔ SpriteHits s (s.reg x) (s.reg y) n px py)) ∧
      ((∃ px py, SpriteHits s (s.reg x) (s.reg y) n px py ∧ s.fb.pixel px py = true) → t.reg vf = 1) ∧
      ((¬ ∃ px py, SpriteHits s (s.reg x) (s.reg y) n px py ∧ s.fb.pixel px py = true) → t.reg vf = 0) ∧
      (∀ r, r ≠ vf → t.reg r = s.reg r) ∧ t.pc = s.pc + 2#16 ∧
      SameIndex s t ∧ SameStack s t ∧ SameTimers s t ∧ SameRun s t ∧ SameMem s t ∧ SamePorts s t

/-- R222: with n at least 1 and I + n − 1 above 0xFFF, DRW faults `OutOfBounds` before any effect: VF and the display
are unchanged. (R222 is decision D9, log 17.) -/
def Obligations.DrawOutOfBoundsFaults : Prop :=
  ∀ (x y : RegIdx) (n : Nibble) (s : State),
    ¬ (s.params.vfAlias = .refuse ∧ aliasCase (.drw x y n) = true) →
    n.toNat ≥ 1 → s.i.toNat + n.toNat - 1 > 0xFFF →
    exec (.drw x y n) s = .next (halts s .outOfBounds (some (encode (.drw x y n))))

/-- R225: a second DRW with the same I, n, coordinates and sprite bytes, from the display the first one left, restores
every pixel. Its VF is 1 exactly when a set bit of the sprite lands on a pixel that was off before the first; so, where
all of them were off, exactly when the sprite has a set bit. R225 says the latter of every display, which R221, R224
and R241 contradict (log 37); the statement is what those rules give. -/
def Obligations.DrawTwiceRestoresDisplay : Prop :=
  ∀ (x y x' y' : RegIdx) (n : Nibble) (s s' : State),
    ¬ (s.params.vfAlias = .refuse ∧ aliasCase (.drw x y n) = true) →
    ¬ (s'.params.vfAlias = .refuse ∧ aliasCase (.drw x' y' n) = true) →
    (n.toNat = 0 ∨ s.i.toNat + n.toNat - 1 ≤ 0xFFF) →
    s'.i = s.i → s'.reg x' = s.reg x → s'.reg y' = s.reg y → SameMem s s' →
    ∃ t, exec (.drw x y n) s = .next t ∧
      (SamePixels t s' →
        ∃ u, exec (.drw x' y' n) s' = .next u ∧ SamePixels s u ∧
          ((∃ px py, SpriteHits s (s.reg x) (s.reg y) n px py ∧ s.fb.pixel px py = false) → u.reg vf = 1) ∧
          ((¬ ∃ px py, SpriteHits s (s.reg x) (s.reg y) n px py ∧ s.fb.pixel px py = false) → u.reg vf = 0) ∧
          ((∀ px py, SpriteHits s (s.reg x) (s.reg y) n px py → s.fb.pixel px py = false) →
            (∃ r c : Nat, r < n.toNat ∧ c < 8 ∧ (s.mem.read (s.i.toNat + r)).getLsbD (7 - c) = true) →
            u.reg vf = 1))

/-! ## Keys and timers (44_keys_timers.md, 60_exceptions.md) -/

/-- R250 and R251, when Vx names a key: SKP skips exactly when that key is held, SKNP exactly when it is not; neither
waits, and nothing else changes. -/
def Obligations.SkipsOnHeldKey : Prop :=
  ∀ (x : RegIdx) (s : State), (s.reg x).toNat ≤ 0xF →
    (∃ t, exec (.skp x) s = .next t ∧
      t.pc = s.pc + (if s.keys.getLsbD (s.reg x).toNat = true then 4#16 else 2#16) ∧ OnlyPc s t) ∧
    (∃ t, exec (.sknp x) s = .next t ∧
      t.pc = s.pc + (if s.keys.getLsbD (s.reg x).toNat = true then 2#16 else 4#16) ∧ OnlyPc s t)

/-- R272, when Vx names no key (decision D11, log 7): under `not_pressed` SKP goes on and SKNP skips; under `draw` both
follow one free bit, the statement holding whatever it is, and the next such instruction asks for a new one. -/
def Obligations.SkipsOnHighKey : Prop :=
  ∀ (x : RegIdx) (s : State), (s.reg x).toNat > 0xF →
    (s.params.keyHigh = .notPressed →
      (∃ t, exec (.skp x) s = .next t ∧ t.pc = s.pc + 2#16 ∧ OnlyPc s t) ∧
      (∃ t, exec (.sknp x) s = .next t ∧ t.pc = s.pc + 4#16 ∧ OnlyPc s t)) ∧
    (s.params.keyHigh = .draw →
      (∃ t, exec (.skp x) s = .next t ∧
        t.pc = s.pc + (if Config.highKeyHeld s.draws = true then 4#16 else 2#16) ∧ OnlyPc s t ∧
        t.draws ≠ s.draws) ∧
      (∃ t, exec (.sknp x) s = .next t ∧
        t.pc = s.pc + (if Config.highKeyHeld s.draws = true then 2#16 else 4#16) ∧ OnlyPc s t ∧
        t.draws ≠ s.draws))

/-- R253: with no key pending LD Vx,K completes with the state as it was, so that it runs again; with key p pending it
writes p to Vx and advances, and the key stays pending (decision D21, log 25). -/
def Obligations.WaitForKey : Prop :=
  ∀ (x : RegIdx) (s : State),
    (s.pending = none → exec (.ldVxK x) s = .next s) ∧
    (∀ p, s.pending = some p → ∃ t, exec (.ldVxK x) s = .next t ∧ (t.reg x).toNat = p.toNat ∧
      (∀ r, r ≠ x → t.reg r = s.reg r) ∧ t.pc = s.pc + 2#16 ∧ OnlyRegsAndPc s t)

/-- R252, R254 and R255: LD Vx,DT copies DT to Vx; LD DT,Vx and LD ST,Vx copy Vx to that timer and leave the other. -/
def Obligations.TimerInstructions : Prop :=
  ∀ (x : RegIdx) (s : State),
    (encode (.ldVxDT x) = 0xF#4 ++ x ++ 0x07#8 ∧ encode (.ldDT x) = 0xF#4 ++ x ++ 0x15#8 ∧
     encode (.ldST x) = 0xF#4 ++ x ++ 0x18#8) ∧
    (∃ t, exec (.ldVxDT x) s = .next t ∧ (∀ r, t.reg r = if r = x then s.dt else s.reg r) ∧
      t.pc = s.pc + 2#16 ∧ OnlyRegsAndPc s t) ∧
    (∃ t, exec (.ldDT x) s = .next t ∧ t.dt = s.reg x ∧ t.st = s.st ∧ t.pc = s.pc + 2#16 ∧ SameRegs s t ∧
      SameIndex s t ∧ SameStack s t ∧ SameRun s t ∧ SameMem s t ∧ SamePixels s t ∧ SamePorts s t) ∧
    (∃ t, exec (.ldST x) s = .next t ∧ t.st = s.reg x ∧ t.dt = s.dt ∧ t.pc = s.pc + 2#16 ∧ SameRegs s t ∧
      SameIndex s t ∧ SameStack s t ∧ SameRun s t ∧ SameMem s t ∧ SamePixels s t ∧ SamePorts s t)

/-- R292: a tick counts both timers down by one, stopping at 0 under `stop` and going on to 0xFF under `wrap`
(decision D14, log 13), whatever the run state is, and changes nothing else. -/
def Obligations.TickCountsDown : Prop :=
  ∀ s : State,
    (s.params.timerAtZero = .stop → s.tick.dt.toNat = s.dt.toNat - 1 ∧ s.tick.st.toNat = s.st.toNat - 1) ∧
    (s.params.timerAtZero = .wrap → s.tick.dt.toNat = (s.dt.toNat + 255) % 256 ∧
      s.tick.st.toNat = (s.st.toNat + 255) % 256) ∧
    s.tick.pc = s.pc ∧ SameRegs s s.tick ∧ SameIndex s s.tick ∧ SameStack s s.tick ∧ SameRun s s.tick ∧
    SameMem s s.tick ∧ SamePixels s s.tick ∧ SamePorts s s.tick

/-- R293, R288: a tick may come before or after any instruction but those that touch DT or ST, with the same result:
timers change no control flow. (Both rules rest on decisions, D14, D19 and D26.) -/
def Obligations.TickCommutesWithStep : Prop :=
  ∀ i s, (∀ x, i ≠ .ldVxDT x ∧ i ≠ .ldDT x ∧ i ≠ .ldST x) →
    (∀ t, exec i s = .next t → exec i s.tick = .next t.tick) ∧
    (∀ r, exec i s = .refused r → exec i s.tick = .refused r)

/-! ## Reset and launch (70_reset_and_hazards.md) -/

/-- R38 and R320: `reset()` from any state with an image that fits the memory. Under `RESET_REGS = zero` every
register, I, DT, ST and pixel is 0, the spec's own choice (decisions D12 and D23, logs 3 and 4); under `launch_input`
V, I, DT, ST and the pixels are the launch's. Either way pc = 0x200, SP = −1, run = Running, no fault, and memory is
the image; and S is 0, under `launch_input` too, which is the model's choice (R38 against D12 and U5, log 36). A longer
image has no state after (U15, N9, log 38). -/
def Obligations.HostResetLoadsResetState : Prop :=
  ∀ (s : State) (image : List Byte) (l : LaunchInputs),
    (image.length > 0x1000 → s.after (.reset image l) = none) ∧
    (image.length ≤ 0x1000 → ∃ t, s.after (.reset image l) = some t ∧ ResetState t ∧
      t.pc.toNat = 0x200 ∧ t.sp = -1 ∧ t.run = .running ∧ t.fault = none ∧ t.params = s.params ∧
      (∀ k : Fin 16, t.stack[k] = 0) ∧ (∀ a (h : a < image.length), t.mem.read a = image[a]) ∧
      (s.params.resetRegs = .zero → (∀ r, t.reg r = 0) ∧ t.i = 0 ∧ t.dt = 0 ∧ t.st = 0 ∧
        ∀ px py, t.fb.pixel px py = false) ∧
      (s.params.resetRegs = .launchInput → (∀ r : RegIdx, t.reg r = l.v[r.toNat]'(r.isLt)) ∧ t.i = l.i ∧
        t.dt = l.dt ∧ t.st = l.st ∧ ∀ px py, t.fb.pixel px py = l.fb.pixel px py))

/-- R59 and R321: the image the host builds from a font of 80 bytes and a ROM of at most 3584 is well formed. (The
zeros between font and ROM are the host's choice, log 33.) -/
def Obligations.LaunchImageIsWellFormed : Prop :=
  ∀ font rom : List Byte, font.length = 80 → rom.length ≤ 3584 →
    WellFormedImage (Memory.ofBytes 0 (launchImage font rom)) font rom

/-! ## The whole machine -/

/-- R22's column "writes", R27: an instruction that completes leaves every general register that the table does not
list for it, VF among them, as it was. (R22 is marked derived.) -/
def Obligations.WritesOnlyListedRegisters : Prop :=
  ∀ i s t, exec i s = .next t → ∀ r, writesReg i r = false → t.reg r = s.reg r

/-- R22's column "reads": the value of a general register that the table does not list as read makes no difference to
the result, but for that register itself. (R22 is marked derived.) -/
def Obligations.ReadsOnlyListedRegisters : Prop :=
  ∀ i s r b, readsReg i r = false → blankReg r (exec i (s.setReg r b)) = blankReg r (exec i s)

/-- R294, R32, R255: no instruction reads ST: its value makes no difference to the result, but for ST itself. -/
def Obligations.SoundTimerHasNoObserver : Prop :=
  ∀ i s b, blankST (exec i (s.setST b)) = blankST (exec i s)

/-- R54, R220, R221: only LD B,Vx and LD [I],Vx write memory, only CLS and DRW write pixels, and no instruction changes
what the keypad answers or the launch parameters. (R54 rests on decision D27.) -/
def Obligations.MemoryAndPixelWriters : Prop :=
  ∀ i s t, exec i s = .next t →
    ((∀ x, i ≠ .ldB x ∧ i ≠ .stRegs x) → SameMem s t) ∧
    ((i ≠ .cls ∧ ∀ x y n, i ≠ .drw x y n) → SamePixels s t) ∧ SamePorts s t

/-- R28, R29, R32: only LD I,addr, ADD I,Vx and LD F,Vx write I; only CALL and RET change SP and S; only LD DT,Vx
writes DT and only LD ST,Vx writes ST. (R28 rests on decision D7.) -/
def Obligations.IndexStackTimerWriters : Prop :=
  ∀ i s t, exec i s = .next t →
    (((∀ nnn, i ≠ .ldI nnn) ∧ ∀ x, i ≠ .addI x ∧ i ≠ .ldF x) → SameIndex s t) ∧
    (((∀ nnn, i ≠ .call nnn) ∧ i ≠ .ret) → SameStack s t) ∧
    ((∀ x, i ≠ .ldDT x) → t.dt = s.dt) ∧ ((∀ x, i ≠ .ldST x) → t.st = s.st)

/-- R24: a step takes exactly one pc path. A refused step changes nothing (the whole state: decision D16, log 21) and a
faulting one leaves pc; JP, CALL, RET and JP V0 take their target (JP V0's is not masked: decision D8, log 16); LD Vx,K
with no key pending leaves pc; SE, SNE, SKP and SKNP advance by 4 when their condition holds, else by 2 (for V[x] above
0xF the key's bit is R272's: decision D11, log 7); every other instruction advances by 2. -/
def Obligations.PcPaths : Prop :=
  (∀ s : State, s.run = .halted → s.after .step = some s) ∧
  (∀ s t, s.run = .running → step s = .next t → t.run = .halted → t.pc = s.pc) ∧
  (∀ i s t, s.run = .running → exec i s = .next t → t.run = .running →
    (∀ w, explicitTarget i s = some w → t.pc = w) ∧
    (explicitTarget i s = none →
      ((∃ x, i = .ldVxK x) → s.pending = none → t.pc = s.pc) ∧
      (¬ ((∃ x, i = .ldVxK x) ∧ s.pending = none) →
        (canSkip i = true → (skipHolds i s → t.pc = s.pc + 4#16) ∧ (¬ skipHolds i s → t.pc = s.pc + 2#16)) ∧
        (canSkip i = false → t.pc = s.pc + 2#16))))

/-- The state after reset meets the invariant, and field by field is R38's: pc = 0x200, SP = −1, Running, no fault, and
0 in every register, I, DT, ST, stack entry and pixel, the spec's own choice (decisions D12 and D23, logs 3 and 4). The
zeros of memory, the idle keypad and R6's defaults are the model's (logs 2, 5 and 9). -/
def Obligations.ResetMeetsInvariant : Prop :=
  State.reset.Inv ∧ ResetState State.reset ∧
  State.reset.pc.toNat = 0x200 ∧ State.reset.sp = -1 ∧ State.reset.run = .running ∧ State.reset.fault = none ∧
  (∀ r, State.reset.reg r = 0) ∧ State.reset.i = 0 ∧ State.reset.dt = 0 ∧ State.reset.st = 0 ∧
  (∀ k : Fin 16, State.reset.stack[k] = 0) ∧ (∀ px py, State.reset.fb.pixel px py = false) ∧
  (∀ a, State.reset.mem.read a = 0) ∧
  State.reset.keys = 0 ∧ State.reset.pending = none ∧ State.reset.params = Params.default

/-- Every step keeps the invariant, from every state that meets it: memory stays canonical, the core is Halted exactly
when a fault is recorded (R33), and pc and the stack entries stay within R26's bounds. -/
def Obligations.StepKeepsInvariant : Prop := ∀ s t, s.Inv → step s = .next t → t.Inv

/-- Every sequence of steps, ticks, timer writes, keypad answers and resets, in any order (R293, R303), keeps the
invariant. -/
def Obligations.RunsKeepInvariant : Prop :=
  ∀ (as : List Action) (s t : State), s.Inv → s.afterAll as = some t → t.Inv

/-- Under `I_ADD_POLICY = mask12` or `fault` every step keeps I inside the memory, at most 0xFFF (R192, the spec's
non-default policies, log 11). -/
def Obligations.StepKeepsIndexBounded : Prop :=
  ∀ s t, s.IndexBounded → step s = .next t → t.IndexBounded
end

