-- ==== Sys2Proof/Laws/Decode.lean ====
section
/-! SUPPORT. The fields of encoded words, and a word from its fields (spec/30_encoding.md R71, R72). -/

namespace Sys2Proof

/-! ## Fields of concatenations -/

theorem extract_append_high {n m : Nat} (a : BitVec n) (b : BitVec m) (s l : Nat) :
    (a ++ b).extractLsb' (m + s) l = a.extractLsb' s l := by
  ext i hi
  rw [BitVec.getElem_extractLsb', BitVec.getElem_extractLsb', BitVec.getLsbD_append, if_neg (by omega)]
  congr 1; omega

theorem extract_append_low {n m : Nat} (a : BitVec n) (b : BitVec m) {s l : Nat} (h : s + l ≤ m) :
    (a ++ b).extractLsb' s l = b.extractLsb' s l := by
  ext i hi
  rw [BitVec.getElem_extractLsb', BitVec.getElem_extractLsb', BitVec.getLsbD_append, if_pos (by omega)]

theorem extract_all {n : Nat} (a : BitVec n) : a.extractLsb' 0 n = a := by
  ext i hi; simp

/-- A word is its high field and its low field. -/
theorem extract_append {n m : Nat} (w : BitVec (n + m)) : w.extractLsb' m n ++ w.extractLsb' 0 m = w := by
  ext i hi
  rw [BitVec.getElem_append]
  split
  · simp only [BitVec.getElem_extractLsb', Nat.zero_add]; exact BitVec.getLsbD_eq_getElem hi
  · simp only [BitVec.getElem_extractLsb']; rw [BitVec.getLsbD_eq_getElem (by omega)]; congr 1; omega

/-- A field of a field. -/
theorem extract_extract {n a l s k : Nat} (w : BitVec n) (h : s + k ≤ l) :
    (w.extractLsb' a l).extractLsb' s k = w.extractLsb' (a + s) k := by
  ext i hi
  rw [BitVec.getElem_extractLsb', BitVec.getLsbD_extractLsb', BitVec.getElem_extractLsb']
  simp [show s + i < l by omega, Nat.add_assoc]

/-! ## Format `A` -/

@[simp] theorem fieldFamily_encodeA (f : Nibble) (n : Addr12) : fieldFamily (encodeA f n) = f :=
  (extract_append_high f n 0 4).trans (extract_all f)

@[simp] theorem fieldNNN_encodeA (f : Nibble) (n : Addr12) : fieldNNN (encodeA f n) = n :=
  (extract_append_low f n (Nat.le_refl 12)).trans (extract_all n)

theorem encodeA_fields (op : Word) : encodeA (fieldFamily op) (fieldNNN op) = op :=
  extract_append (n := 4) (m := 12) op

/-! ## Format `XK` -/

@[simp] theorem fieldFamily_encodeXK (f x : Nibble) (k : Byte) : fieldFamily (encodeXK f x k) = f :=
  (extract_append_high (f ++ x) k 4 4).trans ((extract_append_high f x 0 4).trans (extract_all f))

@[simp] theorem fieldX_encodeXK (f x : Nibble) (k : Byte) : fieldX (encodeXK f x k) = x :=
  (extract_append_high (f ++ x) k 0 4).trans ((extract_append_low f x (Nat.le_refl 4)).trans (extract_all x))

@[simp] theorem fieldKK_encodeXK (f x : Nibble) (k : Byte) : fieldKK (encodeXK f x k) = k :=
  (extract_append_low (f ++ x) k (Nat.le_refl 8)).trans (extract_all k)

theorem fieldFamily_append_fieldX (op : Word) : fieldFamily op ++ fieldX op = op.extractLsb' 8 8 := by
  have h := extract_append (n := 4) (m := 4) (op.extractLsb' 8 8)
  rwa [extract_extract op (by omega), extract_extract op (by omega)] at h

theorem encodeXK_fields (op : Word) : encodeXK (fieldFamily op) (fieldX op) (fieldKK op) = op := by
  show fieldFamily op ++ fieldX op ++ fieldKK op = op
  rw [fieldFamily_append_fieldX]
  exact extract_append (n := 8) (m := 8) op

/-! ## Formats `XY`, `XS` and `XYN` -/

@[simp] theorem fieldFamily_encodeXYN (f x y n : Nibble) : fieldFamily (encodeXYN f x y n) = f :=
  (extract_append_high (f ++ x ++ y) n 8 4).trans
    ((extract_append_high (f ++ x) y 4 4).trans ((extract_append_high f x 0 4).trans (extract_all f)))

@[simp] theorem fieldX_encodeXYN (f x y n : Nibble) : fieldX (encodeXYN f x y n) = x :=
  (extract_append_high (f ++ x ++ y) n 4 4).trans
    ((extract_append_high (f ++ x) y 0 4).trans ((extract_append_low f x (Nat.le_refl 4)).trans (extract_all x)))

@[simp] theorem fieldY_encodeXYN (f x y n : Nibble) : fieldY (encodeXYN f x y n) = y :=
  (extract_append_high (f ++ x ++ y) n 0 4).trans
    ((extract_append_low (f ++ x) y (Nat.le_refl 4)).trans (extract_all y))

@[simp] theorem fieldN_encodeXYN (f x y n : Nibble) : fieldN (encodeXYN f x y n) = n :=
  (extract_append_low (f ++ x ++ y) n (Nat.le_refl 4)).trans (extract_all n)

theorem encodeXYN_fields (op : Word) : encodeXYN (fieldFamily op) (fieldX op) (fieldY op) (fieldN op) = op := by
  show fieldFamily op ++ fieldX op ++ fieldY op ++ fieldN op = op
  have h : (fieldY op ++ fieldN op : BitVec 8) = fieldKK op := by
    have h := extract_append (n := 4) (m := 4) (op.extractLsb' 0 8)
    rwa [extract_extract op (by omega), extract_extract op (by omega)] at h
  have := encodeXK_fields op
  rw [← h] at this
  calc fieldFamily op ++ fieldX op ++ fieldY op ++ fieldN op
      = fieldFamily op ++ fieldX op ++ (fieldY op ++ fieldN op) := by
        rw [BitVec.append_assoc]; rfl
    _ = op := this

end Sys2Proof
end

