-- ==== Sys2Proof/Laws/Memory.lean ====
section
/-! SUPPORT. The laws of memory: reading what was written, the canonical form kept by every operation, and images. -/

namespace Sys2Proof.Machine

/-! ## Reading -/

@[simp] theorem Memory.read_nil (a : Nat) : Memory.read [] a = Memory.unlisted := rfl

theorem Memory.read_cons (b : Nat) (u : Byte) (m : Memory) (a : Nat) :
    Memory.read ((b, u) :: m) a = if a = b then u else m.read a := rfl

/-- Below the first listed address every byte is unlisted. -/
theorem Memory.read_below {lo : Nat} {m : Memory} (h : m.wfFrom lo = true) {a : Nat} (ha : a < lo) :
    m.read a = Memory.unlisted := by
  induction m generalizing lo with
  | nil => rfl
  | cons c m ih =>
    obtain ⟨b, u⟩ := c
    simp only [Memory.wfFrom, Bool.and_eq_true, decide_eq_true_eq] at h
    rw [Memory.read_cons, if_neg (by omega), ih h.2 (by omega)]

theorem Memory.wfFrom_mono {lo lo' : Nat} {m : Memory} (h : m.wfFrom lo = true) (hl : lo' ≤ lo) :
    m.wfFrom lo' = true := by
  cases m with
  | nil => rfl
  | cons c m =>
    obtain ⟨b, u⟩ := c
    simp only [Memory.wfFrom, Bool.and_eq_true, decide_eq_true_eq] at h ⊢
    exact ⟨⟨⟨by omega, h.1.1.2⟩, h.1.2⟩, h.2⟩

theorem Memory.read_put (a : Nat) (v : Byte) {m : Memory} (h : m.wfFrom (a + 1) = true) (c : Nat) :
    (Memory.put a v m).read c = if c = a then v else m.read c := by
  unfold Memory.put
  split
  · rename_i hv
    by_cases hc : c = a
    · subst hc; simp [hv, Memory.read_below h (Nat.lt_succ_self c)]
    · simp [hc]
  · exact Memory.read_cons a v m c

theorem Memory.wfFrom_put {lo a : Nat} (v : Byte) {m : Memory} (h : m.wfFrom (a + 1) = true) (hl : lo ≤ a)
    (ha : a < memorySize) : (Memory.put a v m).wfFrom lo = true := by
  unfold Memory.put
  split
  · exact Memory.wfFrom_mono h (by omega)
  · rename_i hv; simp [Memory.wfFrom, h, hl, ha, hv]

/-! ## Writing -/

theorem Memory.wfFrom_write {lo : Nat} {m : Memory} (h : m.wfFrom lo = true) {a : Nat} (hl : lo ≤ a)
    (ha : a < memorySize) (v : Byte) : (m.write a v).wfFrom lo = true := by
  induction m generalizing lo with
  | nil => exact Memory.wfFrom_put v rfl hl ha
  | cons c m ih =>
    obtain ⟨b, u⟩ := c
    have h' := h
    simp only [Memory.wfFrom, Bool.and_eq_true, decide_eq_true_eq] at h
    unfold Memory.write
    split
    · refine Memory.wfFrom_put v ?_ hl ha
      simp only [Memory.wfFrom, Bool.and_eq_true, decide_eq_true_eq]
      exact ⟨⟨⟨by omega, h.1.1.2⟩, h.1.2⟩, h.2⟩
    · split
      · rename_i hab; subst hab
        exact Memory.wfFrom_put v h.2 hl ha
      · simp only [Memory.wfFrom, Bool.and_eq_true, decide_eq_true_eq]
        exact ⟨h.1, ih h.2 (by omega)⟩

/-- A write keeps the canonical form. -/
theorem Memory.wf_write {m : Memory} (h : m.wf = true) {a : Nat} (ha : a < memorySize) (v : Byte) :
    (m.write a v).wf = true := Memory.wfFrom_write h (Nat.zero_le a) ha v

theorem Memory.wf_writeWord {m : Memory} (h : m.wf = true) {a : Nat} (ha : a + 1 < memorySize) (op : Word) :
    (m.writeWord a op).wf = true :=
  Memory.wf_write (Memory.wf_write h (by omega) _) ha _

theorem Memory.read_write_from {lo : Nat} {m : Memory} (h : m.wfFrom lo = true) (a : Nat) (v : Byte) (c : Nat) :
    (m.write a v).read c = if c = a then v else m.read c := by
  induction m generalizing lo with
  | nil => exact Memory.read_put a v rfl c
  | cons p m ih =>
    obtain ⟨b, u⟩ := p
    simp only [Memory.wfFrom, Bool.and_eq_true, decide_eq_true_eq] at h
    unfold Memory.write
    split
    · refine Memory.read_put a v ?_ c
      simp only [Memory.wfFrom, Bool.and_eq_true, decide_eq_true_eq]
      exact ⟨⟨⟨by omega, h.1.1.2⟩, h.1.2⟩, h.2⟩
    · split
      · rename_i hab; subst hab
        rw [Memory.read_put a v h.2 c, Memory.read_cons]
        by_cases hc : c = a <;> simp [hc]
      · rename_i hab
        rw [Memory.read_cons, Memory.read_cons, ih h.2]
        by_cases hc : c = b
        · subst hc; simp [Ne.symm hab]
        · simp [hc]

/-- A read after a write gives the byte written there, and every other byte as before, in canonical memory. -/
theorem Memory.read_write {m : Memory} (h : m.wf = true) (a : Nat) (v : Byte) (c : Nat) :
    (m.write a v).read c = if c = a then v else m.read c := Memory.read_write_from h a v c

/-- A write leaves every other byte alone, whatever the memory's form. -/
theorem Memory.read_write_ne (m : Memory) {a c : Nat} (hc : c ≠ a) (v : Byte) :
    (m.write a v).read c = m.read c := by
  induction m with
  | nil => unfold Memory.write Memory.put; split <;> simp [Memory.read_cons, hc]
  | cons p m ih =>
    obtain ⟨b, u⟩ := p
    unfold Memory.write
    split
    · unfold Memory.put; split <;> simp [Memory.read_cons, hc]
    · split
      · rename_i hab; subst hab
        unfold Memory.put; split <;> simp [Memory.read_cons, hc]
      · simp [Memory.read_cons, ih]

/-- Two canonical memories with the same bytes are the same data. -/
theorem Memory.ext_from {lo : Nat} {m n : Memory} (hm : m.wfFrom lo = true) (hn : n.wfFrom lo = true)
    (h : ∀ a, m.read a = n.read a) : m = n := by
  induction m generalizing lo n with
  | nil =>
    cases n with
    | nil => rfl
    | cons q n =>
      obtain ⟨c, w⟩ := q
      have hc := h c
      simp only [Memory.wfFrom, Bool.and_eq_true, bne_iff_ne] at hn
      simp [Memory.read_cons] at hc
      exact absurd hc.symm hn.1.2
  | cons p m ih =>
    obtain ⟨b, u⟩ := p
    cases n with
    | nil =>
      have hb := h b
      simp only [Memory.wfFrom, Bool.and_eq_true, bne_iff_ne] at hm
      simp [Memory.read_cons] at hb
      exact absurd hb hm.1.2
    | cons q n =>
      obtain ⟨c, w⟩ := q
      simp only [Memory.wfFrom, Bool.and_eq_true, bne_iff_ne, decide_eq_true_eq] at hm hn
      have hbc : b = c := by
        rcases Nat.lt_trichotomy b c with hlt | heq | hgt
        · have := h b
          rw [Memory.read_cons, Memory.read_cons, if_pos rfl, if_neg (by omega),
            Memory.read_below hn.2 (by omega)] at this
          exact absurd this hm.1.2
        · exact heq
        · have := h c
          rw [Memory.read_cons, Memory.read_cons, if_pos rfl, if_neg (by omega),
            Memory.read_below hm.2 (by omega)] at this
          exact absurd this.symm hn.1.2
      subst hbc
      have huw : u = w := by simpa [Memory.read_cons] using h b
      subst huw
      congr 1
      refine ih hm.2 hn.2 fun a => ?_
      by_cases hab : a = b
      · subst hab
        rw [Memory.read_below hm.2 (by omega), Memory.read_below hn.2 (by omega)]
      · simpa [Memory.read_cons, hab] using h a

theorem Memory.ext {m n : Memory} (hm : m.wf = true) (hn : n.wf = true) (h : ∀ a, m.read a = n.read a) : m = n :=
  Memory.ext_from hm hn h

/-! ## Images -/

theorem Memory.wfFrom_ofBytes (a : Nat) (bs : List Byte) : (Memory.ofBytes a bs).wfFrom a = true := by
  induction bs generalizing a with
  | nil => rfl
  | cons b bs ih =>
    unfold Memory.ofBytes
    split
    · exact Memory.wfFrom_put b (ih (a + 1)) (Nat.le_refl a) (by assumption)
    · rfl

/-- An image is canonical memory. -/
theorem Memory.wf_ofBytes (bs : List Byte) : (Memory.ofBytes 0 bs).wf = true := Memory.wfFrom_ofBytes 0 bs

/-- The bytes of an image placed from address `a` on. -/
theorem Memory.read_ofBytes (a : Nat) (bs : List Byte) (k : Nat) (hk : k < bs.length) (hs : a + k < memorySize) :
    (Memory.ofBytes a bs).read (a + k) = bs[k] := by
  induction bs generalizing a k with
  | nil => simp at hk
  | cons b bs ih =>
    unfold Memory.ofBytes
    rw [if_pos (by omega), Memory.read_put a b (Memory.wfFrom_ofBytes (a + 1) bs)]
    cases k with
    | zero => simp
    | succ k =>
      rw [if_neg (by omega)]
      have := ih (a + 1) k (by simpa using hk) (by omega)
      simpa [Nat.add_assoc, Nat.add_comm 1 k] using this

/-! ## The state after reset -/

theorem Memory.wf_reset : State.reset.mem.wf = true := rfl

end Sys2Proof.Machine
end

