-- ==== Sys2Proof/Laws/State.lean ====
section
/-! SUPPORT. What each update of the state does to each field: one lemma per field per update, true by rfl. -/

namespace Sys2Proof.Machine

variable (s : State)

/-! ## `State.setReg` -/

@[simp] theorem State.setReg_i (x : RegIdx) (b : Byte) : (s.setReg x b).i = s.i := rfl
@[simp] theorem State.setReg_pc (x : RegIdx) (b : Byte) : (s.setReg x b).pc = s.pc := rfl
@[simp] theorem State.setReg_stack (x : RegIdx) (b : Byte) : (s.setReg x b).stack = s.stack := rfl
@[simp] theorem State.setReg_depth (x : RegIdx) (b : Byte) : (s.setReg x b).depth = s.depth := rfl
@[simp] theorem State.setReg_dt (x : RegIdx) (b : Byte) : (s.setReg x b).dt = s.dt := rfl
@[simp] theorem State.setReg_st (x : RegIdx) (b : Byte) : (s.setReg x b).st = s.st := rfl
@[simp] theorem State.setReg_run (x : RegIdx) (b : Byte) : (s.setReg x b).run = s.run := rfl
@[simp] theorem State.setReg_fault (x : RegIdx) (b : Byte) : (s.setReg x b).fault = s.fault := rfl
@[simp] theorem State.setReg_mem (x : RegIdx) (b : Byte) : (s.setReg x b).mem = s.mem := rfl
@[simp] theorem State.setReg_fb (x : RegIdx) (b : Byte) : (s.setReg x b).fb = s.fb := rfl
@[simp] theorem State.setReg_keys (x : RegIdx) (b : Byte) : (s.setReg x b).keys = s.keys := rfl
@[simp] theorem State.setReg_pending (x : RegIdx) (b : Byte) : (s.setReg x b).pending = s.pending := rfl
@[simp] theorem State.setReg_draws (x : RegIdx) (b : Byte) : (s.setReg x b).draws = s.draws := rfl
@[simp] theorem State.setReg_params (x : RegIdx) (b : Byte) : (s.setReg x b).params = s.params := rfl

/-! ## `State.setI` -/

@[simp] theorem State.setI_v (w : Word) : (s.setI w).v = s.v := rfl
@[simp] theorem State.setI_pc (w : Word) : (s.setI w).pc = s.pc := rfl
@[simp] theorem State.setI_stack (w : Word) : (s.setI w).stack = s.stack := rfl
@[simp] theorem State.setI_depth (w : Word) : (s.setI w).depth = s.depth := rfl
@[simp] theorem State.setI_dt (w : Word) : (s.setI w).dt = s.dt := rfl
@[simp] theorem State.setI_st (w : Word) : (s.setI w).st = s.st := rfl
@[simp] theorem State.setI_run (w : Word) : (s.setI w).run = s.run := rfl
@[simp] theorem State.setI_fault (w : Word) : (s.setI w).fault = s.fault := rfl
@[simp] theorem State.setI_mem (w : Word) : (s.setI w).mem = s.mem := rfl
@[simp] theorem State.setI_fb (w : Word) : (s.setI w).fb = s.fb := rfl
@[simp] theorem State.setI_keys (w : Word) : (s.setI w).keys = s.keys := rfl
@[simp] theorem State.setI_pending (w : Word) : (s.setI w).pending = s.pending := rfl
@[simp] theorem State.setI_draws (w : Word) : (s.setI w).draws = s.draws := rfl
@[simp] theorem State.setI_params (w : Word) : (s.setI w).params = s.params := rfl
@[simp] theorem State.setI_i (w : Word) : (s.setI w).i = w := rfl

/-! ## `State.setDT` -/

@[simp] theorem State.setDT_v (b : Byte) : (s.setDT b).v = s.v := rfl
@[simp] theorem State.setDT_i (b : Byte) : (s.setDT b).i = s.i := rfl
@[simp] theorem State.setDT_pc (b : Byte) : (s.setDT b).pc = s.pc := rfl
@[simp] theorem State.setDT_stack (b : Byte) : (s.setDT b).stack = s.stack := rfl
@[simp] theorem State.setDT_depth (b : Byte) : (s.setDT b).depth = s.depth := rfl
@[simp] theorem State.setDT_st (b : Byte) : (s.setDT b).st = s.st := rfl
@[simp] theorem State.setDT_run (b : Byte) : (s.setDT b).run = s.run := rfl
@[simp] theorem State.setDT_fault (b : Byte) : (s.setDT b).fault = s.fault := rfl
@[simp] theorem State.setDT_mem (b : Byte) : (s.setDT b).mem = s.mem := rfl
@[simp] theorem State.setDT_fb (b : Byte) : (s.setDT b).fb = s.fb := rfl
@[simp] theorem State.setDT_keys (b : Byte) : (s.setDT b).keys = s.keys := rfl
@[simp] theorem State.setDT_pending (b : Byte) : (s.setDT b).pending = s.pending := rfl
@[simp] theorem State.setDT_draws (b : Byte) : (s.setDT b).draws = s.draws := rfl
@[simp] theorem State.setDT_params (b : Byte) : (s.setDT b).params = s.params := rfl
@[simp] theorem State.setDT_dt (b : Byte) : (s.setDT b).dt = b := rfl

/-! ## `State.setST` -/

@[simp] theorem State.setST_v (b : Byte) : (s.setST b).v = s.v := rfl
@[simp] theorem State.setST_i (b : Byte) : (s.setST b).i = s.i := rfl
@[simp] theorem State.setST_pc (b : Byte) : (s.setST b).pc = s.pc := rfl
@[simp] theorem State.setST_stack (b : Byte) : (s.setST b).stack = s.stack := rfl
@[simp] theorem State.setST_depth (b : Byte) : (s.setST b).depth = s.depth := rfl
@[simp] theorem State.setST_dt (b : Byte) : (s.setST b).dt = s.dt := rfl
@[simp] theorem State.setST_run (b : Byte) : (s.setST b).run = s.run := rfl
@[simp] theorem State.setST_fault (b : Byte) : (s.setST b).fault = s.fault := rfl
@[simp] theorem State.setST_mem (b : Byte) : (s.setST b).mem = s.mem := rfl
@[simp] theorem State.setST_fb (b : Byte) : (s.setST b).fb = s.fb := rfl
@[simp] theorem State.setST_keys (b : Byte) : (s.setST b).keys = s.keys := rfl
@[simp] theorem State.setST_pending (b : Byte) : (s.setST b).pending = s.pending := rfl
@[simp] theorem State.setST_draws (b : Byte) : (s.setST b).draws = s.draws := rfl
@[simp] theorem State.setST_params (b : Byte) : (s.setST b).params = s.params := rfl
@[simp] theorem State.setST_st (b : Byte) : (s.setST b).st = b := rfl

/-! ## `State.setFB` -/

@[simp] theorem State.setFB_v (f : FrameBuffer) : (s.setFB f).v = s.v := rfl
@[simp] theorem State.setFB_i (f : FrameBuffer) : (s.setFB f).i = s.i := rfl
@[simp] theorem State.setFB_pc (f : FrameBuffer) : (s.setFB f).pc = s.pc := rfl
@[simp] theorem State.setFB_stack (f : FrameBuffer) : (s.setFB f).stack = s.stack := rfl
@[simp] theorem State.setFB_depth (f : FrameBuffer) : (s.setFB f).depth = s.depth := rfl
@[simp] theorem State.setFB_dt (f : FrameBuffer) : (s.setFB f).dt = s.dt := rfl
@[simp] theorem State.setFB_st (f : FrameBuffer) : (s.setFB f).st = s.st := rfl
@[simp] theorem State.setFB_run (f : FrameBuffer) : (s.setFB f).run = s.run := rfl
@[simp] theorem State.setFB_fault (f : FrameBuffer) : (s.setFB f).fault = s.fault := rfl
@[simp] theorem State.setFB_mem (f : FrameBuffer) : (s.setFB f).mem = s.mem := rfl
@[simp] theorem State.setFB_keys (f : FrameBuffer) : (s.setFB f).keys = s.keys := rfl
@[simp] theorem State.setFB_pending (f : FrameBuffer) : (s.setFB f).pending = s.pending := rfl
@[simp] theorem State.setFB_draws (f : FrameBuffer) : (s.setFB f).draws = s.draws := rfl
@[simp] theorem State.setFB_params (f : FrameBuffer) : (s.setFB f).params = s.params := rfl
@[simp] theorem State.setFB_fb (f : FrameBuffer) : (s.setFB f).fb = f := rfl

/-! ## `State.drew` -/

@[simp] theorem State.drew_v : (s.drew).v = s.v := rfl
@[simp] theorem State.drew_i : (s.drew).i = s.i := rfl
@[simp] theorem State.drew_pc : (s.drew).pc = s.pc := rfl
@[simp] theorem State.drew_stack : (s.drew).stack = s.stack := rfl
@[simp] theorem State.drew_depth : (s.drew).depth = s.depth := rfl
@[simp] theorem State.drew_dt : (s.drew).dt = s.dt := rfl
@[simp] theorem State.drew_st : (s.drew).st = s.st := rfl
@[simp] theorem State.drew_run : (s.drew).run = s.run := rfl
@[simp] theorem State.drew_fault : (s.drew).fault = s.fault := rfl
@[simp] theorem State.drew_mem : (s.drew).mem = s.mem := rfl
@[simp] theorem State.drew_fb : (s.drew).fb = s.fb := rfl
@[simp] theorem State.drew_keys : (s.drew).keys = s.keys := rfl
@[simp] theorem State.drew_pending : (s.drew).pending = s.pending := rfl
@[simp] theorem State.drew_params : (s.drew).params = s.params := rfl
@[simp] theorem State.drew_draws : (s.drew).draws = s.draws + 1 := rfl

/-! ## `State.jump` -/

@[simp] theorem State.jump_v (w : Word) : (s.jump w).v = s.v := rfl
@[simp] theorem State.jump_i (w : Word) : (s.jump w).i = s.i := rfl
@[simp] theorem State.jump_stack (w : Word) : (s.jump w).stack = s.stack := rfl
@[simp] theorem State.jump_depth (w : Word) : (s.jump w).depth = s.depth := rfl
@[simp] theorem State.jump_dt (w : Word) : (s.jump w).dt = s.dt := rfl
@[simp] theorem State.jump_st (w : Word) : (s.jump w).st = s.st := rfl
@[simp] theorem State.jump_run (w : Word) : (s.jump w).run = s.run := rfl
@[simp] theorem State.jump_fault (w : Word) : (s.jump w).fault = s.fault := rfl
@[simp] theorem State.jump_mem (w : Word) : (s.jump w).mem = s.mem := rfl
@[simp] theorem State.jump_fb (w : Word) : (s.jump w).fb = s.fb := rfl
@[simp] theorem State.jump_keys (w : Word) : (s.jump w).keys = s.keys := rfl
@[simp] theorem State.jump_pending (w : Word) : (s.jump w).pending = s.pending := rfl
@[simp] theorem State.jump_draws (w : Word) : (s.jump w).draws = s.draws := rfl
@[simp] theorem State.jump_params (w : Word) : (s.jump w).params = s.params := rfl
@[simp] theorem State.jump_pc (w : Word) : (s.jump w).pc = w := rfl

/-! ## `State.goNext` -/

@[simp] theorem State.goNext_v : (s.goNext).v = s.v := rfl
@[simp] theorem State.goNext_i : (s.goNext).i = s.i := rfl
@[simp] theorem State.goNext_stack : (s.goNext).stack = s.stack := rfl
@[simp] theorem State.goNext_depth : (s.goNext).depth = s.depth := rfl
@[simp] theorem State.goNext_dt : (s.goNext).dt = s.dt := rfl
@[simp] theorem State.goNext_st : (s.goNext).st = s.st := rfl
@[simp] theorem State.goNext_run : (s.goNext).run = s.run := rfl
@[simp] theorem State.goNext_fault : (s.goNext).fault = s.fault := rfl
@[simp] theorem State.goNext_mem : (s.goNext).mem = s.mem := rfl
@[simp] theorem State.goNext_fb : (s.goNext).fb = s.fb := rfl
@[simp] theorem State.goNext_keys : (s.goNext).keys = s.keys := rfl
@[simp] theorem State.goNext_pending : (s.goNext).pending = s.pending := rfl
@[simp] theorem State.goNext_draws : (s.goNext).draws = s.draws := rfl
@[simp] theorem State.goNext_params : (s.goNext).params = s.params := rfl
@[simp] theorem State.goNext_pc : (s.goNext).pc = s.pc + 2#16 := rfl

/-! ## `State.goSkip` -/

@[simp] theorem State.goSkip_v : (s.goSkip).v = s.v := rfl
@[simp] theorem State.goSkip_i : (s.goSkip).i = s.i := rfl
@[simp] theorem State.goSkip_stack : (s.goSkip).stack = s.stack := rfl
@[simp] theorem State.goSkip_depth : (s.goSkip).depth = s.depth := rfl
@[simp] theorem State.goSkip_dt : (s.goSkip).dt = s.dt := rfl
@[simp] theorem State.goSkip_st : (s.goSkip).st = s.st := rfl
@[simp] theorem State.goSkip_run : (s.goSkip).run = s.run := rfl
@[simp] theorem State.goSkip_fault : (s.goSkip).fault = s.fault := rfl
@[simp] theorem State.goSkip_mem : (s.goSkip).mem = s.mem := rfl
@[simp] theorem State.goSkip_fb : (s.goSkip).fb = s.fb := rfl
@[simp] theorem State.goSkip_keys : (s.goSkip).keys = s.keys := rfl
@[simp] theorem State.goSkip_pending : (s.goSkip).pending = s.pending := rfl
@[simp] theorem State.goSkip_draws : (s.goSkip).draws = s.draws := rfl
@[simp] theorem State.goSkip_params : (s.goSkip).params = s.params := rfl
@[simp] theorem State.goSkip_pc : (s.goSkip).pc = s.pc + 4#16 := rfl

/-! ## `State.raise` -/

@[simp] theorem State.raise_v (k : FaultKind) (op : Option Word) : (s.raise k op).v = s.v := rfl
@[simp] theorem State.raise_i (k : FaultKind) (op : Option Word) : (s.raise k op).i = s.i := rfl
@[simp] theorem State.raise_pc (k : FaultKind) (op : Option Word) : (s.raise k op).pc = s.pc := rfl
@[simp] theorem State.raise_stack (k : FaultKind) (op : Option Word) : (s.raise k op).stack = s.stack := rfl
@[simp] theorem State.raise_depth (k : FaultKind) (op : Option Word) : (s.raise k op).depth = s.depth := rfl
@[simp] theorem State.raise_dt (k : FaultKind) (op : Option Word) : (s.raise k op).dt = s.dt := rfl
@[simp] theorem State.raise_st (k : FaultKind) (op : Option Word) : (s.raise k op).st = s.st := rfl
@[simp] theorem State.raise_mem (k : FaultKind) (op : Option Word) : (s.raise k op).mem = s.mem := rfl
@[simp] theorem State.raise_fb (k : FaultKind) (op : Option Word) : (s.raise k op).fb = s.fb := rfl
@[simp] theorem State.raise_keys (k : FaultKind) (op : Option Word) : (s.raise k op).keys = s.keys := rfl
@[simp] theorem State.raise_pending (k : FaultKind) (op : Option Word) : (s.raise k op).pending = s.pending := rfl
@[simp] theorem State.raise_draws (k : FaultKind) (op : Option Word) : (s.raise k op).draws = s.draws := rfl
@[simp] theorem State.raise_params (k : FaultKind) (op : Option Word) : (s.raise k op).params = s.params := rfl
@[simp] theorem State.raise_run (k : FaultKind) (op : Option Word) : (s.raise k op).run = .halted := rfl
@[simp] theorem State.raise_fault (k : FaultKind) (op : Option Word) : (s.raise k op).fault = some { kind := k, pc := s.pc, opcode := op } := rfl

/-! ## `State.setKeypad` -/

@[simp] theorem State.setKeypad_v (m : BitVec 16) (p : Option Nibble) : (s.setKeypad m p).v = s.v := rfl
@[simp] theorem State.setKeypad_i (m : BitVec 16) (p : Option Nibble) : (s.setKeypad m p).i = s.i := rfl
@[simp] theorem State.setKeypad_pc (m : BitVec 16) (p : Option Nibble) : (s.setKeypad m p).pc = s.pc := rfl
@[simp] theorem State.setKeypad_stack (m : BitVec 16) (p : Option Nibble) : (s.setKeypad m p).stack = s.stack := rfl
@[simp] theorem State.setKeypad_depth (m : BitVec 16) (p : Option Nibble) : (s.setKeypad m p).depth = s.depth := rfl
@[simp] theorem State.setKeypad_dt (m : BitVec 16) (p : Option Nibble) : (s.setKeypad m p).dt = s.dt := rfl
@[simp] theorem State.setKeypad_st (m : BitVec 16) (p : Option Nibble) : (s.setKeypad m p).st = s.st := rfl
@[simp] theorem State.setKeypad_run (m : BitVec 16) (p : Option Nibble) : (s.setKeypad m p).run = s.run := rfl
@[simp] theorem State.setKeypad_fault (m : BitVec 16) (p : Option Nibble) : (s.setKeypad m p).fault = s.fault := rfl
@[simp] theorem State.setKeypad_mem (m : BitVec 16) (p : Option Nibble) : (s.setKeypad m p).mem = s.mem := rfl
@[simp] theorem State.setKeypad_fb (m : BitVec 16) (p : Option Nibble) : (s.setKeypad m p).fb = s.fb := rfl
@[simp] theorem State.setKeypad_draws (m : BitVec 16) (p : Option Nibble) : (s.setKeypad m p).draws = s.draws := rfl
@[simp] theorem State.setKeypad_params (m : BitVec 16) (p : Option Nibble) : (s.setKeypad m p).params = s.params := rfl
@[simp] theorem State.setKeypad_keys (m : BitVec 16) (p : Option Nibble) : (s.setKeypad m p).keys = m := rfl
@[simp] theorem State.setKeypad_pending (m : BitVec 16) (p : Option Nibble) : (s.setKeypad m p).pending = p := rfl

/-! ## General registers through the other updates -/

@[simp] theorem State.reg_setI (w : Word) (y : RegIdx) : (s.setI w).reg y = s.reg y := rfl
@[simp] theorem State.reg_setDT (b : Byte) (y : RegIdx) : (s.setDT b).reg y = s.reg y := rfl
@[simp] theorem State.reg_setST (b : Byte) (y : RegIdx) : (s.setST b).reg y = s.reg y := rfl
@[simp] theorem State.reg_setFB (f : FrameBuffer) (y : RegIdx) : (s.setFB f).reg y = s.reg y := rfl
@[simp] theorem State.reg_drew (y : RegIdx) : (s.drew).reg y = s.reg y := rfl
@[simp] theorem State.reg_jump (w : Word) (y : RegIdx) : (s.jump w).reg y = s.reg y := rfl
@[simp] theorem State.reg_goNext (y : RegIdx) : (s.goNext).reg y = s.reg y := rfl
@[simp] theorem State.reg_goSkip (y : RegIdx) : (s.goSkip).reg y = s.reg y := rfl
@[simp] theorem State.reg_raise (k : FaultKind) (op : Option Word) (y : RegIdx) : (s.raise k op).reg y = s.reg y := rfl
@[simp] theorem State.reg_setKeypad (m : BitVec 16) (p : Option Nibble) (y : RegIdx) : (s.setKeypad m p).reg y = s.reg y := rfl

/-! ## A memory replaced whole -/

@[simp] theorem State.reg_withMem (m : Memory) (y : RegIdx) : ({ s with mem := m } : State).reg y = s.reg y := rfl

/-! ## Reading a register after writing one -/

@[simp] theorem State.reg_setReg (x y : RegIdx) (b : Byte) :
    (s.setReg x b).reg y = if y = x then b else s.reg y := by
  unfold State.reg State.setReg
  by_cases h : y = x
  · subst h; simp
  · have : x.toNat ≠ y.toNat := fun e => h (BitVec.eq_of_toNat_eq e.symm)
    simp [h, Vector.getElem_set_ne _ _ this]

/-- Two register files with the same sixteen registers are the same. -/
theorem State.v_ext {s t : State} (h : ∀ r, t.reg r = s.reg r) : t.v = s.v := by
  refine Vector.ext fun k hk => ?_
  have := h (BitVec.ofNat 4 k)
  have hk' : (BitVec.ofNat 4 k).toNat = k := by simp; omega
  simpa [State.reg, hk'] using this

/-- What VF-then-Vx leaves in each register (41_alu.md R140, R141 `latched`). -/
theorem State.reg_setFlagThenReg (flag : Byte) (x : RegIdx) (r : Byte) (y : RegIdx) :
    (s.setFlagThenReg flag x r).reg y = if y = x then r else if y = vf then flag else s.reg y := by
  simp [State.setFlagThenReg]

theorem State.setReg_comm {x y : RegIdx} (h : x ≠ y) (a b : Byte) :
    (s.setReg x a).setReg y b = (s.setReg y b).setReg x a := by
  have hn : x.toNat ≠ y.toNat := fun e => h (BitVec.eq_of_toNat_eq e)
  simp [State.setReg, Vector.set_comm _ _ hn]

@[simp] theorem State.setReg_setReg (x : RegIdx) (a b : Byte) : (s.setReg x a).setReg x b = s.setReg x b := by
  simp [State.setReg]

/-- The state after `skipIf` differs in pc alone. -/
theorem State.skipIf_eq (c : Bool) : s.skipIf c = s.jump (s.pc + if c then 4#16 else 2#16) := by
  cases c <;> rfl

theorem State.afterKeyHeld_eq (k : Byte) :
    s.afterKeyHeld k = s ∨ s.afterKeyHeld k = s.drew := by
  unfold State.afterKeyHeld; split <;> simp

end Sys2Proof.Machine
end

