-- ==== Sys2Proof/Laws/Ops.lean ====
section
/-! SUPPORT. One lemma for each shared operation that says all it can do: the memory port, blocks of memory and of
registers, the stack, the fetch, stores and traps. -/

namespace Sys2Proof.Machine

/-! ## The memory port (20_memory.md R53, R54) -/

theorem State.memRead_eq_some {s : State} {a : Nat} (h : a < memorySize) : s.memRead a = some (s.mem.read a) :=
  if_pos h

theorem State.memWrite_eq_some {s : State} {a : Nat} (h : a < memorySize) (v : Byte) :
    s.memWrite a v = some { s with mem := s.mem.write a v } := if_pos h

/-- A block inside the memory is read whole: byte k of the answer is the byte at a + k. -/
theorem State.readBlock_spec (s : State) (a n : Nat) (h : a + n ≤ memorySize) :
    ∃ bs, s.readBlock a n = some bs ∧ bs.length = n ∧ ∀ k (hk : k < bs.length), bs[k] = s.mem.read (a + k) := by
  induction n generalizing a with
  | zero => exact ⟨[], rfl, rfl, fun k hk => absurd hk (Nat.not_lt_zero k)⟩
  | succ n ih =>
    obtain ⟨bs, hbs, hlen, hget⟩ := ih (a + 1) (by omega)
    refine ⟨s.mem.read a :: bs, ?_, by simp [hlen], ?_⟩
    · simp [State.readBlock, State.memRead_eq_some (s := s) (a := a) (by omega), hbs]
    · intro k hk
      cases k with
      | zero => rfl
      | succ k =>
        have := hget k (by simpa using hk)
        simpa [Nat.add_assoc, Nat.add_comm 1 k] using this

/-- A block read does not depend on anything but memory. -/
theorem State.readBlock_congr {s t : State} (h : t.mem = s.mem) (a n : Nat) :
    t.readBlock a n = s.readBlock a n := by
  induction n generalizing a with
  | zero => rfl
  | succ n ih => simp [State.readBlock, State.memRead, h, ih]

/-- Bytes written from address `a` on, in ascending order. -/
def Memory.writeAll : Memory → Nat → List Byte → Memory
  | m, _, [] => m
  | m, a, b :: bs => Memory.writeAll (m.write a b) (a + 1) bs

/-- A block inside the memory is written whole, and nothing but memory changes. -/
theorem State.writeBlock_spec (s : State) (a : Nat) (bs : List Byte) (h : a + bs.length ≤ memorySize) :
    s.writeBlock a bs = some { s with mem := s.mem.writeAll a bs } := by
  induction bs generalizing s a with
  | nil => rfl
  | cons b bs ih =>
    simp only [List.length_cons] at h
    simp only [State.writeBlock, State.memWrite_eq_some (s := s) (a := a) (by omega) b]
    rw [ih _ _ (by omega)]
    rfl

theorem Memory.wf_writeAll {m : Memory} (hm : m.wf = true) (a : Nat) (bs : List Byte)
    (h : a + bs.length ≤ memorySize) : (m.writeAll a bs).wf = true := by
  induction bs generalizing m a with
  | nil => exact hm
  | cons b bs ih =>
    simp only [List.length_cons] at h
    exact ih (Memory.wf_write hm (by omega) b) (a + 1) (by omega)

/-- Outside the block every byte is as before, whatever the memory's form. -/
theorem Memory.read_writeAll_outside (m : Memory) (a : Nat) (bs : List Byte) {c : Nat}
    (h : c < a ∨ a + bs.length ≤ c) : (m.writeAll a bs).read c = m.read c := by
  induction bs generalizing m a with
  | nil => rfl
  | cons b bs ih =>
    simp only [List.length_cons] at h
    rw [Memory.writeAll, ih _ _ (by omega), Memory.read_write_ne _ (by omega)]

/-- Inside the block, byte k is the k-th written, in canonical memory. -/
theorem Memory.read_writeAll_inside {m : Memory} (hm : m.wf = true) (a : Nat) (bs : List Byte)
    (h : a + bs.length ≤ memorySize) (k : Nat) (hk : k < bs.length) : (m.writeAll a bs).read (a + k) = bs[k] := by
  induction bs generalizing m a k with
  | nil => simp at hk
  | cons b bs ih =>
    simp only [List.length_cons] at h hk
    rw [Memory.writeAll]
    cases k with
    | zero => rw [Memory.read_writeAll_outside _ _ _ (by omega)]; simp [Memory.read_write hm]
    | succ k =>
      have := ih (Memory.wf_write hm (a := a) (by omega) b) (a + 1) (by omega) k (by omega)
      simpa [Nat.add_assoc, Nat.add_comm 1 k] using this

/-! ## Blocks of registers (42_index_memory.md R195, R196) -/

theorem State.regBlock_length (s : State) (x : RegIdx) : (s.regBlock x).length = x.toNat + 1 := by
  simp [State.regBlock]

theorem State.regBlock_get (s : State) (x : RegIdx) (k : Nat) (hk : k < (s.regBlock x).length) :
    (s.regBlock x)[k] = s.reg (BitVec.ofNat 4 k) := by
  simp [State.regBlock]

/-- Loading a block of registers changes the registers alone. -/
theorem State.setRegs_frame (s : State) (k : Nat) (bs : List Byte) :
    s.setRegs k bs = { s with v := (s.setRegs k bs).v } := by
  induction bs generalizing s k with
  | nil => rfl
  | cons b bs ih => rw [State.setRegs, ih]; rfl

/-- Each register of the block gets its byte, every other register keeps its value. -/
theorem State.reg_setRegs (s : State) (k : Nat) (bs : List Byte) (h : k + bs.length ≤ 16) (r : RegIdx) :
    (s.setRegs k bs).reg r =
      if hr : k ≤ r.toNat ∧ r.toNat < k + bs.length then bs[r.toNat - k]'(by omega) else s.reg r := by
  induction bs generalizing s k with
  | nil => rw [dif_neg (by simp)]; rfl
  | cons b bs ih =>
    simp only [List.length_cons] at h
    rw [State.setRegs, ih _ _ (by omega)]
    have hk : (BitVec.ofNat 4 k).toNat = k := by simp; omega
    have hrk : (r = BitVec.ofNat 4 k) ↔ r.toNat = k :=
      ⟨fun e => by rw [e, hk], fun e => BitVec.eq_of_toNat_eq (by rw [hk, e])⟩
    by_cases h1 : k + 1 ≤ r.toNat ∧ r.toNat < k + 1 + bs.length
    · rw [dif_pos h1, dif_pos (by simp; omega)]
      have : r.toNat - k = (r.toNat - (k + 1)) + 1 := by omega
      simp [this]
    · rw [dif_neg h1, State.reg_setReg]
      by_cases h2 : r.toNat = k
      · rw [if_pos (hrk.mpr h2), dif_pos (by simp; omega)]; simp [h2]
      · rw [if_neg (fun e => h2 (hrk.mp e)), dif_neg (by simp; omega)]

/-! ## The return stack (10_state.md R30, R31) -/

theorem State.push_spec (s : State) (w : Word) (h : s.depth.val < 16) :
    s.push w = some { s with stack := s.stack.set s.depth.val w h, depth := ⟨s.depth.val + 1, by omega⟩ } :=
  dif_pos h

theorem State.push_full (s : State) (w : Word) (h : ¬ s.depth.val < 16) : s.push w = none := dif_neg h

theorem State.pop_spec (s : State) (h : 0 < s.depth.val) :
    s.pop = some (s.stack[s.depth.val - 1]'(by omega), { s with depth := ⟨s.depth.val - 1, by omega⟩ }) :=
  dif_pos h

theorem State.pop_empty (s : State) (h : ¬ 0 < s.depth.val) : s.pop = none := dif_neg h

/-! ## The fetch (20_memory.md R55) -/

/-- The fetch never reaches past the memory: it gives the word at pc or the fetch's own fault. -/
theorem State.fetch16_spec (s : State) :
    (s.fetch16 = .outOfBounds ∧ (s.pc.toNat > 0xFFD ∨ s.params.oddPc = .fault ∧ s.pc.getLsbD 0 = true)) ∨
    (s.fetch16 = .word (assembleWord (s.mem.read s.pc.toNat) (s.mem.read (s.pc.toNat + 1))) ∧
      s.pc.toNat ≤ 0xFFD ∧ ¬ (s.params.oddPc = .fault ∧ s.pc.getLsbD 0 = true)) := by
  unfold State.fetch16
  split
  · exact .inl ⟨rfl, .inl (by assumption)⟩
  · split
    · exact .inl ⟨rfl, .inr (by assumption)⟩
    · rename_i h1 h2
      have ha : s.pc.toNat < memorySize := by simp only [memorySize]; omega
      have hb : s.pc.toNat + 1 < memorySize := by simp only [memorySize]; omega
      exact .inr ⟨by simp [State.memRead_eq_some ha, State.memRead_eq_some hb], by omega, h2⟩

theorem State.fetch16_word {s : State} (h : s.pc.toNat ≤ 0xFFD)
    (ho : ¬ (s.params.oddPc = .fault ∧ s.pc.getLsbD 0 = true)) :
    s.fetch16 = .word (assembleWord (s.mem.read s.pc.toNat) (s.mem.read (s.pc.toNat + 1))) := by
  rcases s.fetch16_spec with ⟨_, hc⟩ | ⟨he, _⟩
  · exact absurd hc (by rintro (hc | hc); exacts [by omega, ho hc])
  · exact he

/-! ## Stores through I, traps and the alias policy -/

theorem State.not_beyond {s : State} {k : Nat} (h : s.beyond k = false) : s.ea k < memorySize := by
  simp only [State.beyond, decide_eq_false_iff_not] at h
  simp only [memorySize]; omega

/-- A store through I takes its bounds fault or writes its bytes and advances (R52, R194, R195). -/
theorem State.storeAtI_spec (s : State) (instr : Instr) (last : Nat) (bs : List Byte) (h : bs.length = last + 1) :
    (s.beyond last = true ∧ s.storeAtI instr last bs = .next (s.raise .outOfBounds (some (encode instr)))) ∨
    (s.beyond last = false ∧
      s.storeAtI instr last bs = .next ({ s with mem := s.mem.writeAll (s.ea 0) bs } : State).goNext) := by
  unfold State.storeAtI
  cases hb : s.beyond last
  · have := State.not_beyond hb
    have hw := s.writeBlock_spec (s.ea 0) bs (by simp only [State.ea, memorySize] at this ⊢; omega)
    exact .inr ⟨rfl, by simp [hw]⟩
  · exact .inl ⟨rfl, rfl⟩

/-- The alias policy refuses an alias case under `refuse`, and is otherwise not there (R141). -/
theorem State.unlessAlias_spec (s : State) (c : Bool) (r : Result) :
    (s.params.vfAlias = .refuse ∧ c = true ∧ s.unlessAlias c r = .refused .vfAlias) ∨
    (¬ (s.params.vfAlias = .refuse ∧ c = true) ∧ s.unlessAlias c r = r) := by
  unfold State.unlessAlias
  split
  · rename_i h; exact .inl ⟨h.1, h.2, rfl⟩
  · rename_i h; exact .inr ⟨h, rfl⟩

end Sys2Proof.Machine
end

