-- ==== Sys2Proof/Laws/Display.lean ====
section
/-! SUPPORT. The display port's laws: what each operation does to each pixel (spec/43_display.md R240, R241). -/

namespace Sys2Proof.Machine

@[simp] theorem FrameBuffer.pixel_clear (px : Fin 64) (py : Fin 32) : FrameBuffer.clear.pixel px py = false := by
  simp [FrameBuffer.pixel, FrameBuffer.clear]

@[simp] theorem FrameBuffer.pixel_setPixel (f : FrameBuffer) (px qx : Fin 64) (py qy : Fin 32) (b : Bool) :
    (f.setPixel px py b).pixel qx qy = if qx = px ∧ qy = py then b else f.pixel qx qy := by
  unfold FrameBuffer.pixel FrameBuffer.setPixel
  by_cases hx : qx = px
  · subst hx
    by_cases hy : qy = py
    · subst hy; simp
    · have : py.val ≠ qy.val := fun e => hy (Fin.ext e.symm)
      simp [hy, Vector.getElem_set_ne _ _ this]
  · have : px.val ≠ qx.val := fun e => hx (Fin.ext e.symm)
    simp [hx, Vector.getElem_set_ne _ _ this]

/-- Two displays with the same pixels are the same. -/
theorem FrameBuffer.ext {f g : FrameBuffer} (h : ∀ px py, f.pixel px py = g.pixel px py) : f = g := by
  refine Vector.ext fun k hk => Vector.ext fun l hl => ?_
  exact h ⟨k, hk⟩ ⟨l, hl⟩

/-- One sprite bit: it toggles its own pixel when set, and reports that pixel when it was on (R221, R224, R241). -/
theorem drawBit_spec (px : Fin 64) (py : Fin 32) (bit : Bool) (acc : FrameBuffer × Bool) :
    (∀ qx qy, (drawBit px py bit acc).1.pixel qx qy =
      (acc.1.pixel qx qy ^^ (bit && decide (qx = px ∧ qy = py)))) ∧
    (drawBit px py bit acc).2 = (acc.2 || (bit && acc.1.pixel px py)) := by
  unfold drawBit
  cases bit
  · simp
  · refine ⟨fun qx qy => ?_, by simp [FrameBuffer.drawPixel]⟩
    by_cases h : qx = px ∧ qy = py
    · obtain ⟨rfl, rfl⟩ := h; simp [FrameBuffer.drawPixel]
    · simp [FrameBuffer.drawPixel, h]

/-! ## Whole sprites -/

/-- One sprite row: no two columns meet, so each pixel is toggled when a set bit of the row lands on it, and a
collision is reported when one of those pixels was on (R221 to R225). -/
theorem drawColumns_spec (xo : Byte) (py : Fin 32) (row : Byte) (cs : List Nat) (acc : FrameBuffer × Bool)
    (hn : cs.Nodup) (hlt : ∀ c ∈ cs, c < 8) :
    (∀ qx qy, (drawColumns xo py row cs acc).1.pixel qx qy =
      (acc.1.pixel qx qy ^^ decide (∃ c ∈ cs, spriteBit row c = true ∧ qx = spriteX xo c ∧ qy = py))) ∧
    ((drawColumns xo py row cs acc).2 = true ↔ acc.2 = true ∨ ∃ c ∈ cs, spriteBit row c = true ∧ acc.1.pixel (spriteX xo c) py = true) := by
  induction cs generalizing acc with
  | nil => simp [drawColumns]
  | cons c cs ih =>
    obtain ⟨hc, hn⟩ := List.nodup_cons.mp hn
    obtain ⟨h1, h2⟩ := ih (drawBit (spriteX xo c) py (spriteBit row c) acc) hn (fun d hd => hlt d (by simp [hd]))
    obtain ⟨g1, g2⟩ := drawBit_spec (spriteX xo c) py (spriteBit row c) acc
    have inj : ∀ d ∈ cs, spriteX xo d ≠ spriteX xo c := by
      intro d hd e
      have hd8 := hlt d (by simp [hd]); have hc8 := hlt c (by simp)
      have := congrArg Fin.val e
      simp [spriteX, Fin.ofNat] at this
      have : d = c := by omega
      exact hc (this ▸ hd)
    refine ⟨fun qx qy => ?_, ?_⟩
    · rw [drawColumns, h1, g1]
      cases hb : spriteBit row c
      · simp [hb]
      · by_cases hq : qx = spriteX xo c ∧ qy = py
        · have : ¬ ∃ d ∈ cs, spriteBit row d = true ∧ qx = spriteX xo d ∧ qy = py := by
            rintro ⟨d, hd, -, he, -⟩; exact inj d hd (he ▸ hq.1)
          rw [decide_eq_false this]; simp [hb, hq]
        · simp [hb, hq]
    · rw [drawColumns, h2, g2]
      have : ∀ d ∈ cs, (drawBit (spriteX xo c) py (spriteBit row c) acc).1.pixel (spriteX xo d) py = acc.1.pixel (spriteX xo d) py := by
        intro d hd; rw [g1]; simp [inj d hd]
      constructor
      · rintro (h | ⟨d, hd, hb, hp⟩)
        · simp at h; rcases h with h | h
          · exact .inl h
          · exact .inr ⟨c, by simp, h.1, h.2⟩
        · exact .inr ⟨d, by simp [hd], hb, by rwa [this d hd] at hp⟩
      · rintro (h | ⟨d, hd, hb, hp⟩)
        · exact .inl (by simp [h])
        · rcases List.mem_cons.mp hd with rfl | hd
          · exact .inl (by simp [hb, hp])
          · exact .inr ⟨d, hd, hb, by rwa [this d hd]⟩

/-- The whole sprite, likewise: no two rows meet, since there are at most 15 of them on 32 display rows. -/
theorem drawRows_spec (xo yo : Byte) (rows : List Byte) (r0 : Nat) (acc : FrameBuffer × Bool) (hr : r0 + rows.length ≤ 16) :
    (∀ qx qy, (drawRows xo yo r0 rows acc).1.pixel qx qy =
      (acc.1.pixel qx qy ^^ decide (∃ k, ∃ hk : k < rows.length, ∃ c ∈ spriteColumns, spriteBit rows[k] c = true ∧ qx = spriteX xo c ∧ qy = spriteY yo (r0 + k)))) ∧
    ((drawRows xo yo r0 rows acc).2 = true ↔ acc.2 = true ∨ ∃ k, ∃ hk : k < rows.length, ∃ c ∈ spriteColumns, spriteBit rows[k] c = true ∧ acc.1.pixel (spriteX xo c) (spriteY yo (r0 + k)) = true) := by
  induction rows generalizing acc r0 with
  | nil => simp [drawRows]
  | cons row rows ih =>
    simp only [List.length_cons] at hr
    obtain ⟨h1, h2⟩ := ih (r0+1) (drawColumns xo (spriteY yo r0) row spriteColumns acc) (by omega)
    obtain ⟨g1, g2⟩ := drawColumns_spec xo (spriteY yo r0) row spriteColumns acc (by decide) (by decide)
    have inj : ∀ k, k < rows.length → spriteY yo (r0 + 1 + k) ≠ spriteY yo r0 := by
      intro k hk e
      have := congrArg Fin.val e
      simp [spriteY, Fin.ofNat] at this
      omega
    refine ⟨fun qx qy => ?_, ?_⟩
    · rw [drawRows, h1, g1, Bool.xor_assoc]
      congr 1
      by_cases hq : qy = spriteY yo r0
      · have : ¬ ∃ k, ∃ hk : k < rows.length, ∃ c ∈ spriteColumns, spriteBit rows[k] c = true ∧ qx = spriteX xo c ∧ qy = spriteY yo (r0 + 1 + k) := by
          rintro ⟨k, hk, c, hc, -, -, he⟩; exact inj k hk (he ▸ hq)
        rw [decide_eq_false this, Bool.xor_false]
        congr 1; apply propext
        constructor
        · rintro ⟨c, hc, hb, hx, hy⟩; exact ⟨0, by simp, c, hc, hb, hx, hy⟩
        · rintro ⟨k, hk, c, hc, hb, hx, hy⟩
          cases k with
          | zero => exact ⟨c, hc, hb, hx, hy⟩
          | succ k => exact absurd ⟨k, by simpa using hk, c, hc, by simpa using hb, hx, by rw [hy]; congr 1; omega⟩ this
      · have : ¬ ∃ c ∈ spriteColumns, spriteBit row c = true ∧ qx = spriteX xo c ∧ qy = spriteY yo r0 := by
          rintro ⟨c, hc, -, -, he⟩; exact hq he
        rw [decide_eq_false this, Bool.false_xor]
        congr 1; apply propext
        constructor
        · rintro ⟨k, hk, c, hc, hb, hx, hy⟩
          exact ⟨k+1, by simpa using hk, c, hc, by simpa using hb, hx, by rw [hy]; congr 1; omega⟩
        · rintro ⟨k, hk, c, hc, hb, hx, hy⟩
          cases k with
          | zero => exact absurd hy hq
          | succ k => exact ⟨k, by simpa using hk, c, hc, by simpa using hb, hx, by rw [hy]; congr 1; omega⟩
    · rw [drawRows, h2, g2]
      have hp : ∀ k, k < rows.length → ∀ qx, (drawColumns xo (spriteY yo r0) row spriteColumns acc).1.pixel qx (spriteY yo (r0+1+k)) = acc.1.pixel qx (spriteY yo (r0+1+k)) := by
        intro k hk qx
        rw [g1, decide_eq_false, Bool.xor_false]
        rintro ⟨c, hc, -, -, he⟩; exact inj k hk he
      constructor
      · rintro ((h | ⟨c, hc, hb, hx⟩) | ⟨k, hk, c, hc, hb, hx⟩)
        · exact .inl h
        · exact .inr ⟨0, by simp, c, hc, hb, hx⟩
        · rw [hp k hk] at hx
          exact .inr ⟨k+1, by simpa using hk, c, hc, by simpa using hb, by rw [← hx]; congr 2; omega⟩
      · rintro (h | ⟨k, hk, c, hc, hb, hx⟩)
        · exact .inl (.inl h)
        · cases k with
          | zero => exact .inl (.inr ⟨c, hc, hb, hx⟩)
          | succ k =>
            have hk' : k < rows.length := by simpa using hk
            refine .inr ⟨k, hk', c, hc, by simpa using hb, ?_⟩
            rw [hp k hk', ← hx]; congr 2; omega

/-- DRW takes its bounds fault, or draws the n bytes at I (R221, R222). -/
theorem State.drawChecked_spec (s : State) (x y : RegIdx) (n : Nibble) :
    (n.toNat ≥ 1 ∧ s.i.toNat + n.toNat - 1 > 0xFFF ∧
      s.drawChecked x y n = .next (s.raise .outOfBounds (some (encode (.drw x y n))))) ∨
    ((n.toNat = 0 ∨ s.i.toNat + n.toNat - 1 ≤ 0xFFF) ∧
      ∃ rows, rows.length = n.toNat ∧ (∀ k (hk : k < rows.length), rows[k] = s.mem.read (s.ea 0 + k)) ∧
        s.drawChecked x y n = .next (s.drawn x y rows)) := by
  unfold State.drawChecked
  cases hb : s.spriteBeyond n
  · have hb' : n.toNat = 0 ∨ s.i.toNat + n.toNat - 1 ≤ 0xFFF := by
      simp only [State.spriteBeyond, Bool.and_eq_false_iff, decide_eq_false_iff_not] at hb; omega
    refine .inr ⟨hb', ?_⟩
    rcases Nat.eq_zero_or_pos n.toNat with h0 | h0
    · exact ⟨[], by simp [h0], by simp, by rw [h0]; rfl⟩
    · obtain ⟨rows, h1, h2, h3⟩ := s.readBlock_spec (s.ea 0) n.toNat (by simp only [State.ea, memorySize]; omega)
      exact ⟨rows, h2, h3, by rw [h1]; rfl⟩
  · simp only [State.spriteBeyond, Bool.and_eq_true, decide_eq_true_eq] at hb
    exact .inl ⟨hb.1, hb.2, rfl⟩

/-- A drawn sprite changes the pixels, VF and pc alone. -/
theorem State.drawn_eq (s : State) (x y : RegIdx) (rows : List Byte) :
    s.drawn x y rows =
      ((s.setFB (drawSprite (s.reg x) (s.reg y) rows s.fb).1).setReg vf
        (flagByte (drawSprite (s.reg x) (s.reg y) rows s.fb).2)).jump (s.pc + 2#16) := rfl

end Sys2Proof.Machine
end

