-- ==== Sys2Proof/Laws/Exec.lean ====
section
/-! SUPPORT. What one instruction can do, said once: it is an alias case that the policy refuses, or it takes a fault of
its own, or it completes with the run state, the fault record and the parameters as they were; the state an instruction
completes in; and the cases of a step. -/

namespace Sys2Proof.Machine

/-- The ways an instruction ends. -/
def EndsIn (i : Instr) (s : State) (r : Result) : Prop :=
  (s.params.vfAlias = .refuse ∧ aliasCase i = true ∧ r = .refused .vfAlias) ∨
  (∃ k, r = .next (s.raise k (some (encode i)))) ∨
  (∃ t, r = .next t ∧ t.run = s.run ∧ t.fault = s.fault ∧ t.params = s.params)

theorem EndsIn.completes {i : Instr} {s t : State} (h1 : t.run = s.run) (h2 : t.fault = s.fault)
    (h3 : t.params = s.params) : EndsIn i s (.next t) := .inr (.inr ⟨t, rfl, h1, h2, h3⟩)

theorem EndsIn.unlessAlias {i : Instr} {s : State} {c : Bool} {r : Result} (hc : aliasCase i = c)
    (h : EndsIn i s r) : EndsIn i s (s.unlessAlias c r) := by
  rcases s.unlessAlias_spec c r with ⟨h1, h2, h3⟩ | ⟨-, h3⟩
  · exact .inl ⟨h1, hc.trans h2, h3⟩
  · rw [h3]; exact h

theorem EndsIn.trap (i : Instr) (s : State) (k : FaultKind) : EndsIn i s (s.trap k i) := .inr (.inl ⟨k, rfl⟩)

theorem EndsIn.storeAtI (i : Instr) (s : State) (last : Nat) (bs : List Byte) (h : bs.length = last + 1) :
    EndsIn i s (s.storeAtI i last bs) := by
  rcases s.storeAtI_spec i last bs h with ⟨-, he⟩ | ⟨-, he⟩
  · exact .inr (.inl ⟨.outOfBounds, he⟩)
  · rw [he]; exact .completes rfl rfl rfl

theorem skipIf_frame (s : State) (c : Bool) :
    (s.skipIf c).run = s.run ∧ (s.skipIf c).fault = s.fault ∧ (s.skipIf c).params = s.params := by
  cases c <;> exact ⟨rfl, rfl, rfl⟩

theorem EndsIn.skipIf {i : Instr} {s t : State} (c : Bool) (h1 : t.run = s.run) (h2 : t.fault = s.fault)
    (h3 : t.params = s.params) : EndsIn i s (.next (t.skipIf c)) :=
  have h := skipIf_frame t c
  .completes (h.1.trans h1) (h.2.1.trans h2) (h.2.2.trans h3)

theorem EndsIn.keySkip {i : Instr} {s : State} (k : Byte) (c : Bool) :
    EndsIn i s (.next ((s.afterKeyHeld k).skipIf c)) := by
  rcases s.afterKeyHeld_eq k with h | h <;> rw [h] <;> exact .skipIf c rfl rfl rfl

/-- Every instruction ends in one of the three ways; in particular none presents a bad address to the memory port. -/
theorem exec_ends (i : Instr) (s : State) : EndsIn i s (exec i s) := by
  cases i with
  | cls => exact .completes rfl rfl rfl
  | ret =>
    show EndsIn _ s (execRet s)
    unfold execRet
    by_cases h : 0 < s.depth.val
    · rw [State.pop_spec s h]; exact .completes rfl rfl rfl
    · rw [State.pop_empty s h]; exact .trap _ s _
  | jp nnn => exact .completes rfl rfl rfl
  | call nnn =>
    show EndsIn _ s (execCall nnn s)
    unfold execCall
    by_cases h : s.depth.val < 16
    · rw [State.push_spec s _ h]; exact .completes rfl rfl rfl
    · rw [State.push_full s _ h]; exact .trap _ s _
  | seByte x kk => exact .skipIf _ rfl rfl rfl
  | seReg x y => exact .skipIf _ rfl rfl rfl
  | sneByte x kk => exact .skipIf _ rfl rfl rfl
  | sneReg x y => exact .skipIf _ rfl rfl rfl
  | ldByte x kk => exact .completes rfl rfl rfl
  | ldReg x y => exact .completes rfl rfl rfl
  | addByte x kk => exact .completes rfl rfl rfl
  | addReg x y => exact .unlessAlias rfl (.completes rfl rfl rfl)
  | orReg x y => exact .completes rfl rfl rfl
  | andReg x y => exact .completes rfl rfl rfl
  | xorReg x y => exact .completes rfl rfl rfl
  | sub x y => exact .unlessAlias rfl (.completes rfl rfl rfl)
  | subn x y => exact .unlessAlias rfl (.completes rfl rfl rfl)
  | shr x => exact .unlessAlias rfl (.completes rfl rfl rfl)
  | shl x => exact .unlessAlias rfl (.completes rfl rfl rfl)
  | ldI nnn => exact .completes rfl rfl rfl
  | jpV0 nnn => exact .completes rfl rfl rfl
  | rnd x kk => exact .completes rfl rfl rfl
  | drw x y n =>
    refine .unlessAlias rfl ?_
    rcases s.drawChecked_spec x y n with ⟨-, -, he⟩ | ⟨-, rows, -, -, he⟩
    · exact .inr (.inl ⟨.outOfBounds, he⟩)
    · rw [he]; exact .completes rfl rfl rfl
  | skp x => exact .keySkip _ _
  | sknp x => exact .keySkip _ _
  | ldVxDT x => exact .completes rfl rfl rfl
  | ldVxK x =>
    show EndsIn _ s (execLdVxK x s)
    unfold execLdVxK
    cases s.pending <;> exact .completes rfl rfl rfl
  | ldDT x => exact .completes rfl rfl rfl
  | ldST x => exact .completes rfl rfl rfl
  | addI x =>
    show EndsIn _ s (execAddI x s)
    unfold execAddI
    cases indexAfterAdd s.params.iAdd (s.indexSum x)
    · exact .trap _ s _
    · exact .completes rfl rfl rfl
  | ldF x =>
    show EndsIn _ s (execLdF x s)
    unfold execLdF
    split
    · exact .trap _ s _
    · exact .completes rfl rfl rfl
  | ldB x => exact .storeAtI _ s 2 _ rfl
  | stRegs x => exact .storeAtI _ s x.toNat _ (s.regBlock_length x)
  | ldRegs x =>
    show EndsIn _ s (execLdRegs x s)
    unfold execLdRegs
    cases hb : s.beyond x.toNat
    · have := State.not_beyond hb
      obtain ⟨bs, he, -, -⟩ := s.readBlock_spec (s.ea 0) (x.toNat + 1) (by simp only [State.ea, memorySize] at this ⊢; omega)
      rw [he]
      show EndsIn _ s (.next (s.setRegs 0 bs).goNext)
      rw [State.setRegs_frame]
      exact .completes rfl rfl rfl
    · exact .trap _ s _

/-- What each instruction leaves when it completes: the state `t`, in the operations its meaning uses. -/
def Completes (i : Instr) (s t : State) : Prop :=
  match i with
  | .cls => t = (s.setFB FrameBuffer.clear).goNext
  | .ret => ∃ h : 0 < s.depth.val,
      t = ({ s with depth := ⟨s.depth.val - 1, by omega⟩ } : State).jump (s.stack[s.depth.val - 1]'(by omega))
  | .jp nnn => t = s.jump (nnn.zeroExtend 16)
  | .call nnn => ∃ h : s.depth.val < 16,
      t = ({ s with stack := s.stack.set s.depth.val (s.pc + 2#16) h, depth := ⟨s.depth.val + 1, by omega⟩ } : State).jump
        (nnn.zeroExtend 16)
  | .seByte x kk => t = s.skipIf (s.reg x == kk)
  | .seReg x y => t = s.skipIf (s.reg x == s.reg y)
  | .sneByte x kk => t = s.skipIf (s.reg x != kk)
  | .sneReg x y => t = s.skipIf (s.reg x != s.reg y)
  | .ldByte x kk => t = (s.setReg x kk).goNext
  | .ldReg x y => t = (s.setReg x (s.reg y)).goNext
  | .addByte x kk => t = (s.setReg x (s.reg x + kk)).goNext
  | .addReg x y => t = (s.setFlagThenReg (carryFlag (s.reg x) (s.reg y)) x (s.reg x + s.reg y)).goNext
  | .orReg x y => t = (s.setReg x (s.reg x ||| s.reg y)).goNext
  | .andReg x y => t = (s.setReg x (s.reg x &&& s.reg y)).goNext
  | .xorReg x y => t = (s.setReg x (s.reg x ^^^ s.reg y)).goNext
  | .sub x y => t = (s.setFlagThenReg (notBorrowFlag (s.reg x) (s.reg y)) x (s.reg x - s.reg y)).goNext
  | .subn x y => t = (s.setFlagThenReg (notBorrowFlag (s.reg y) (s.reg x)) x (s.reg y - s.reg x)).goNext
  | .shr x => t = (s.setFlagThenReg (shrFlag (s.reg x)) x (s.reg x >>> 1)).goNext
  | .shl x => t = (s.setFlagThenReg (shlFlag (s.reg x)) x (s.reg x <<< 1)).goNext
  | .ldI nnn => t = (s.setI (nnn.zeroExtend 16)).goNext
  | .jpV0 nnn => t = s.jump (offsetTarget (s.reg 0x0#4) nnn)
  | .rnd x kk => t = (s.drew.setReg x (Config.randByte s.draws &&& kk)).goNext
  | .drw x y n => ∃ rows : List Byte, rows.length = n.toNat ∧ t = s.drawn x y rows
  | .skp x => t = ((s.afterKeyHeld (s.reg x)).skipIf (s.keyHeld (s.reg x)))
  | .sknp x => t = ((s.afterKeyHeld (s.reg x)).skipIf (!s.keyHeld (s.reg x)))
  | .ldVxDT x => t = (s.setReg x s.dt).goNext
  | .ldVxK x => (s.pending = none ∧ t = s) ∨
      ∃ p, s.pending = some p ∧ t = (s.setReg x (p.zeroExtend 8)).goNext
  | .ldDT x => t = (s.setDT (s.reg x)).goNext
  | .ldST x => t = (s.setST (s.reg x)).goNext
  | .addI x => ∃ w, indexAfterAdd s.params.iAdd (s.indexSum x) = some w ∧ t = (s.setI w).goNext
  | .ldF x => (s.reg x).toNat ≤ 0xF ∧ t = (s.setI (fontAddress (s.reg x))).goNext
  | .ldB x => s.beyond 2 = false ∧
      t = ({ s with mem := s.mem.writeAll (s.ea 0) (bcdDigits (s.reg x)) } : State).goNext
  | .stRegs x => s.beyond x.toNat = false ∧
      t = ({ s with mem := s.mem.writeAll (s.ea 0) (s.regBlock x) } : State).goNext
  | .ldRegs x => ∃ bs : List Byte, bs.length = x.toNat + 1 ∧ t = (s.setRegs 0 bs).goNext

/-- A next state of `exec` is a fault's Halted state or the one `Completes` describes. -/
theorem exec_next {i : Instr} {s t : State} (h : exec i s = .next t) :
    (∃ k op, t = s.raise k op) ∨ Completes i s t := by
  have ha : ∀ c r, s.unlessAlias c r = .next t → r = .next t := by
    intro c r h; rcases s.unlessAlias_spec c r with ⟨_, _, he⟩ | ⟨_, he⟩ <;> rw [he] at h
    · cases h
    · exact h
  have hn : ∀ a b : State, (Host.Outcome.next a : Result) = .next b → b = a := by intro a b h; cases h; rfl
  cases i with
  | ret => 
    by_cases hd : 0 < s.depth.val
    · simp only [exec, execRet, s.pop_spec hd] at h
      exact .inr ⟨hd, hn _ _ h⟩
    · simp only [exec, execRet, s.pop_empty hd] at h
      exact .inl ⟨_, _, hn _ _ h⟩
  | call nnn => 
    by_cases hd : s.depth.val < 16
    · simp only [exec, execCall, s.push_spec _ hd] at h
      exact .inr ⟨hd, hn _ _ h⟩
    · simp only [exec, execCall, s.push_full _ hd] at h
      exact .inl ⟨_, _, hn _ _ h⟩
  | addReg x y => exact .inr (hn _ _ (ha _ _ h))
  | sub x y => exact .inr (hn _ _ (ha _ _ h))
  | subn x y => exact .inr (hn _ _ (ha _ _ h))
  | shr x => exact .inr (hn _ _ (ha _ _ h))
  | shl x => exact .inr (hn _ _ (ha _ _ h))
  | drw x y n => 
    have h := ha _ _ h
    rcases s.drawChecked_spec x y n with ⟨-, -, he⟩ | ⟨-, rows, hl, -, he⟩ <;> rw [he] at h
    · exact .inl ⟨_, _, hn _ _ h⟩
    · exact .inr ⟨rows, hl, hn _ _ h⟩
  | ldVxK x =>
    simp only [exec, execLdVxK] at h
    cases hp : s.pending with
    | none => simp only [hp] at h; exact .inr (.inl ⟨hp, hn _ _ h⟩)
    | some p => simp only [hp] at h; exact .inr (.inr ⟨p, hp, hn _ _ h⟩)
  | addI x =>
    simp only [exec, execAddI] at h
    cases hp : indexAfterAdd s.params.iAdd (s.indexSum x) with
    | none => simp only [hp] at h; exact .inl ⟨_, _, hn _ _ h⟩
    | some p => simp only [hp] at h; exact .inr ⟨p, hp, hn _ _ h⟩
  | ldF x =>
    simp only [exec, execLdF] at h
    split at h
    · exact .inl ⟨_, _, hn _ _ h⟩
    · exact .inr ⟨by omega, hn _ _ h⟩
  | ldB x =>
    rcases s.storeAtI_spec (.ldB x) 2 (bcdDigits (s.reg x)) rfl with ⟨_, he⟩ | ⟨hb, he⟩
    · rw [show exec (.ldB x) s = _ from he] at h; exact .inl ⟨_, _, hn _ _ h⟩
    · rw [show exec (.ldB x) s = _ from he] at h; exact .inr ⟨hb, hn _ _ h⟩
  | stRegs x =>
    rcases s.storeAtI_spec (.stRegs x) x.toNat _ (s.regBlock_length x) with ⟨_, he⟩ | ⟨hb, he⟩
    · rw [show exec (.stRegs x) s = _ from he] at h; exact .inl ⟨_, _, hn _ _ h⟩
    · rw [show exec (.stRegs x) s = _ from he] at h; exact .inr ⟨hb, hn _ _ h⟩
  | ldRegs x =>
    simp only [exec, execLdRegs] at h
    cases hb : s.beyond x.toNat
    · have := State.not_beyond hb
      obtain ⟨bs, he, h2, -⟩ := s.readBlock_spec (s.ea 0) (x.toNat + 1) (by simp only [State.ea, memorySize] at this ⊢; omega)
      simp only [hb, he] at h
      exact .inr ⟨bs, h2, hn _ _ h⟩
    · simp only [hb] at h; exact .inl ⟨_, _, hn _ _ h⟩
  | _ => exact .inr (hn _ _ h)

/-- An alias case is refused under `refuse`. -/
theorem exec_alias {i : Instr} {s : State} (h : s.params.vfAlias = .refuse) (ha : aliasCase i = true) :
    exec i s = .refused .vfAlias := by
  have hg : ∀ c r, c = true → s.unlessAlias c r = .refused .vfAlias := fun c r hc => if_pos ⟨h, hc⟩
  cases i <;> first
    | exact hg _ _ ha
    | exact absurd ha Bool.false_ne_true

/-- What one step can do: refused while Halted, the fetch's fault, the decoder's, or the instruction. -/
theorem step_cases (s : State) :
    (s.run = .halted ∧ step s = .refused .halted) ∨
    (s.run = .running ∧ s.fetch16 = .outOfBounds ∧ step s = .next (s.raise .outOfBounds none)) ∨
    (s.run = .running ∧ s.pc.toNat ≤ 0xFFD ∧ ∃ op, s.fetch16 = .word op ∧
      ((∃ e, decodeWord op = .error e ∧ step s = .next (s.raise .unknownOpcode (some op))) ∨
       (∃ i, decodeWord op = .ok i ∧ step s = exec i s))) := by
  unfold step
  cases hr : s.run
  · right
    rcases s.fetch16_spec with ⟨hf, -⟩ | ⟨hf, hpc, -⟩
    · left; rw [hf]; exact ⟨rfl, rfl, rfl⟩
    · right
      refine ⟨rfl, hpc, _, hf, ?_⟩
      rw [hf]
      cases hd : decodeWord (assembleWord (s.mem.read s.pc.toNat) (s.mem.read (s.pc.toNat + 1)))
      · exact .inl ⟨_, rfl, by simp [hd]⟩
      · exact .inr ⟨_, rfl, by simp [hd]⟩
  · exact .inl ⟨rfl, rfl⟩

end Sys2Proof.Machine
end

