-- ==== Sys2Proof/Laws/HostPort.lean ====
section
/-! SUPPORT. The host's reset: which images it takes, and that it leaves the spec's reset state
(spec/70_reset_and_hazards.md R320, R329). -/

namespace Sys2Proof.Machine

/-- A reset takes an image that fits the memory and no other. -/
theorem State.resetWithImage_spec (s : State) (image : List Byte) (l : LaunchInputs) :
    (image.length ≤ memorySize ∧ s.resetWithImage image l = some (s.hostReset image l)) ∨
    (memorySize < image.length ∧ s.resetWithImage image l = none) := by
  unfold State.resetWithImage
  split
  · rename_i h; exact .inl ⟨h, rfl⟩
  · rename_i h; exact .inr ⟨Nat.lt_of_not_le h, rfl⟩

/-- Under `zero` the launch inputs are not looked at (R38). -/
theorem State.hostReset_zero {s : State} (h : s.params.resetRegs = .zero) (image : List Byte) (l : LaunchInputs) :
    s.hostReset image l = s.hostReset image LaunchInputs.zero := by
  simp [State.hostReset, h, resetInputs]

/-- Every register is 0 when the launch inputs are. -/
theorem State.reg_hostReset_zero {s : State} (h : s.params.resetRegs = .zero) (image : List Byte) (l : LaunchInputs)
    (r : RegIdx) : (s.hostReset image l).reg r = 0 := by
  simp [State.hostReset, h, resetInputs, LaunchInputs.zero, State.reg]

/-- A reset leaves R329's `ResetState`, whatever the policy and the launch inputs. -/
theorem State.hostReset_resetState (s : State) (image : List Byte) (l : LaunchInputs) :
    ResetState (s.hostReset image l) where
  pc := rfl
  sp := rfl
  run := rfl
  fault := rfl
  stack k := Vector.getElem_replicate k.isLt
  regs h r := State.reg_hostReset_zero (s := s) h image l r
  index h := by
    simp [State.hostReset, show s.params.resetRegs = .zero from h, resetInputs, LaunchInputs.zero]
  timers h := by
    simp [State.hostReset, show s.params.resetRegs = .zero from h, resetInputs, LaunchInputs.zero]
  pixels h px py := by
    simp [State.hostReset, show s.params.resetRegs = .zero from h, resetInputs, LaunchInputs.zero]

/-- The memory a reset leaves reads as the image where it lies inside the memory. -/
theorem State.hostReset_read (s : State) (image : List Byte) (l : LaunchInputs) (a : Nat) (h : a < image.length)
    (hm : a < memorySize) : (s.hostReset image l).mem.read a = image[a] := by
  have := Memory.read_ofBytes 0 image a h (by omega)
  rwa [Nat.zero_add] at this

end Sys2Proof.Machine
end

