-- ==== Sys2Proof/Laws/PerInstr.lean ====
section
/-! SUPPORT. Statements made for each instruction as syntax. -/

namespace Sys2Proof

theorem shift_eq_family (op : Word) (f : Nibble) : op >>> 12 = f.zeroExtend 16 ↔ fieldFamily op = f := by
  have h : op >>> 12 = (fieldFamily op).zeroExtend 16 := by
    ext i hi
    by_cases hi4 : i < 4
    · simp [fieldFamily, hi4]
    · simp [fieldFamily, hi4]; exact BitVec.getLsbD_of_ge _ _ (by omega)
  rw [h]
  refine ⟨fun e => BitVec.eq_of_toNat_eq ?_, fun e => by rw [e]⟩
  have := congrArg BitVec.toNat e
  simp only [BitVec.toNat_setWidth] at this
  omega

theorem truncate_fields (op : Word) :
    op.truncate 12 = fieldNNN op ∧ op.truncate 8 = fieldKK op ∧ op.truncate 4 = fieldN op :=
  ⟨by ext i hi; simp [fieldNNN], by ext i hi; simp [fieldKK], by ext i hi; simp [fieldN]⟩

/-- The well-formedness of a word, by the decoder's fields. -/
theorem wordWellFormed_eq (op : Word) :
    wordWellFormed op =
      if fieldFamily op = 0x0#4 then assigned0 (fieldNNN op)
      else if fieldFamily op = 0x5#4 ∨ fieldFamily op = 0x9#4 then assigned59 (fieldN op)
      else if fieldFamily op = 0x8#4 then assigned8 (fieldN op)
      else if fieldFamily op = 0xE#4 then assignedE (fieldKK op)
      else if fieldFamily op = 0xF#4 then assignedF (fieldKK op)
      else true := by
  unfold wordWellFormed
  obtain ⟨h12, h8, h4⟩ := truncate_fields op
  rw [h12, h8, h4]
  simp only [← shift_eq_family]
  rfl

namespace Laws

/-- The instruction's word is one of the assigned words of spec/30_encoding.md R79. -/
def Assigned.Statement (i : Instr) : Prop := wordWellFormed (encode i) = true

theorem Assigned.cls : Assigned.Statement .cls := by
  unfold Assigned.Statement; decide
theorem Assigned.ret : Assigned.Statement .ret := by
  unfold Assigned.Statement; decide
theorem Assigned.jp (nnn : Addr12) : Assigned.Statement (.jp nnn) := by
  simp [Assigned.Statement, encode, wordWellFormed_eq]
theorem Assigned.call (nnn : Addr12) : Assigned.Statement (.call nnn) := by
  simp [Assigned.Statement, encode, wordWellFormed_eq]
theorem Assigned.seByte (x : RegIdx) (kk : Byte) : Assigned.Statement (.seByte x kk) := by
  simp [Assigned.Statement, encode, wordWellFormed_eq]
theorem Assigned.seReg (x : RegIdx) (y : RegIdx) : Assigned.Statement (.seReg x y) := by
  simp [Assigned.Statement, encode, wordWellFormed_eq, assigned59]
theorem Assigned.sneByte (x : RegIdx) (kk : Byte) : Assigned.Statement (.sneByte x kk) := by
  simp [Assigned.Statement, encode, wordWellFormed_eq]
theorem Assigned.sneReg (x : RegIdx) (y : RegIdx) : Assigned.Statement (.sneReg x y) := by
  simp [Assigned.Statement, encode, wordWellFormed_eq, assigned59]
theorem Assigned.ldByte (x : RegIdx) (kk : Byte) : Assigned.Statement (.ldByte x kk) := by
  simp [Assigned.Statement, encode, wordWellFormed_eq]
theorem Assigned.ldReg (x : RegIdx) (y : RegIdx) : Assigned.Statement (.ldReg x y) := by
  simp [Assigned.Statement, encode, wordWellFormed_eq, assigned8]
theorem Assigned.addByte (x : RegIdx) (kk : Byte) : Assigned.Statement (.addByte x kk) := by
  simp [Assigned.Statement, encode, wordWellFormed_eq]
theorem Assigned.addReg (x : RegIdx) (y : RegIdx) : Assigned.Statement (.addReg x y) := by
  simp [Assigned.Statement, encode, wordWellFormed_eq, assigned8]
theorem Assigned.orReg (x : RegIdx) (y : RegIdx) : Assigned.Statement (.orReg x y) := by
  simp [Assigned.Statement, encode, wordWellFormed_eq, assigned8]
theorem Assigned.andReg (x : RegIdx) (y : RegIdx) : Assigned.Statement (.andReg x y) := by
  simp [Assigned.Statement, encode, wordWellFormed_eq, assigned8]
theorem Assigned.xorReg (x : RegIdx) (y : RegIdx) : Assigned.Statement (.xorReg x y) := by
  simp [Assigned.Statement, encode, wordWellFormed_eq, assigned8]
theorem Assigned.sub (x : RegIdx) (y : RegIdx) : Assigned.Statement (.sub x y) := by
  simp [Assigned.Statement, encode, wordWellFormed_eq, assigned8]
theorem Assigned.subn (x : RegIdx) (y : RegIdx) : Assigned.Statement (.subn x y) := by
  simp [Assigned.Statement, encode, wordWellFormed_eq, assigned8]
theorem Assigned.shr (x : RegIdx) : Assigned.Statement (.shr x) := by
  simp [Assigned.Statement, encode, wordWellFormed_eq, assigned8]
theorem Assigned.shl (x : RegIdx) : Assigned.Statement (.shl x) := by
  simp [Assigned.Statement, encode, wordWellFormed_eq, assigned8]
theorem Assigned.ldI (nnn : Addr12) : Assigned.Statement (.ldI nnn) := by
  simp [Assigned.Statement, encode, wordWellFormed_eq]
theorem Assigned.jpV0 (nnn : Addr12) : Assigned.Statement (.jpV0 nnn) := by
  simp [Assigned.Statement, encode, wordWellFormed_eq]
theorem Assigned.rnd (x : RegIdx) (kk : Byte) : Assigned.Statement (.rnd x kk) := by
  simp [Assigned.Statement, encode, wordWellFormed_eq]
theorem Assigned.drw (x : RegIdx) (y : RegIdx) (n : Nibble) : Assigned.Statement (.drw x y n) := by
  simp [Assigned.Statement, encode, wordWellFormed_eq]
theorem Assigned.skp (x : RegIdx) : Assigned.Statement (.skp x) := by
  simp [Assigned.Statement, encode, wordWellFormed_eq, assignedE]
theorem Assigned.sknp (x : RegIdx) : Assigned.Statement (.sknp x) := by
  simp [Assigned.Statement, encode, wordWellFormed_eq, assignedE]
theorem Assigned.ldVxDT (x : RegIdx) : Assigned.Statement (.ldVxDT x) := by
  simp [Assigned.Statement, encode, wordWellFormed_eq, assignedF]
theorem Assigned.ldVxK (x : RegIdx) : Assigned.Statement (.ldVxK x) := by
  simp [Assigned.Statement, encode, wordWellFormed_eq, assignedF]
theorem Assigned.ldDT (x : RegIdx) : Assigned.Statement (.ldDT x) := by
  simp [Assigned.Statement, encode, wordWellFormed_eq, assignedF]
theorem Assigned.ldST (x : RegIdx) : Assigned.Statement (.ldST x) := by
  simp [Assigned.Statement, encode, wordWellFormed_eq, assignedF]
theorem Assigned.addI (x : RegIdx) : Assigned.Statement (.addI x) := by
  simp [Assigned.Statement, encode, wordWellFormed_eq, assignedF]
theorem Assigned.ldF (x : RegIdx) : Assigned.Statement (.ldF x) := by
  simp [Assigned.Statement, encode, wordWellFormed_eq, assignedF]
theorem Assigned.ldB (x : RegIdx) : Assigned.Statement (.ldB x) := by
  simp [Assigned.Statement, encode, wordWellFormed_eq, assignedF]
theorem Assigned.stRegs (x : RegIdx) : Assigned.Statement (.stRegs x) := by
  simp [Assigned.Statement, encode, wordWellFormed_eq, assignedF]
theorem Assigned.ldRegs (x : RegIdx) : Assigned.Statement (.ldRegs x) := by
  simp [Assigned.Statement, encode, wordWellFormed_eq, assignedF]

end Laws

end Sys2Proof
end

