-- ==== Sys2Proof/Tests/Slice0.lean ====
section
/-! SUPPORT. Tests, each expected result taken from spec/ (95_test_vectors.md's vector where its number is given), and
a witness for the hypotheses of each statement. -/

namespace Sys2Proof.Tests

open Sys2Proof Sys2Proof.Machine

/-! ## Helpers -/

/-- The start state of 95_test_vectors.md: the reset state. -/
abbrev r0 : State := State.reset

/-- The state after, where there is one. -/
def nextState : Result → Option State
  | .next t => some t
  | .fault _ => none
  | .refused _ => none

/-- One step with the word at pc and pc + 1. -/
def ran (op : Word) (s : State) : Option State := nextState (step (s.withFetchWord 16 op.toNat))

/-- pc placed. -/
abbrev atPc (s : State) (a : Word) : State := s.jump a

/-- SP placed. -/
abbrev withSp (s : State) (d : Fin 17) : State := { s with depth := d }

/-- A byte of memory placed. -/
abbrev withByte (s : State) (a : Nat) (b : Byte) : State := { s with mem := s.mem.write a b }

/-- A pixel switched on. -/
abbrev withPixel (s : State) (px : Fin 64) (py : Fin 32) : State := s.setFB (s.fb.setPixel px py true)

/-- What a fault leaves: run, the record, and pc. -/
abbrev faultView (t : State) : RunState × Option FaultRecord × Word := (t.run, t.fault, t.pc)

/-! ## Well-formedness: an ill-formed word for each check, which the check and the decoder refuse (R79) -/

theorem test_wf_family0 : wordWellFormed 0x0123 = false ∧ decodeWord 0x0123 = .error (.unknownOpcode 0x0123) := by
  decide
theorem test_wf_family5 : wordWellFormed 0x5121 = false ∧ decodeWord 0x5121 = .error (.unknownOpcode 0x5121) := by
  decide
theorem test_wf_family8 : wordWellFormed 0x8128 = false ∧ decodeWord 0x8128 = .error (.unknownOpcode 0x8128) := by
  decide
theorem test_wf_family9 : wordWellFormed 0x9121 = false ∧ decodeWord 0x9121 = .error (.unknownOpcode 0x9121) := by
  decide
theorem test_wf_familyE : wordWellFormed 0xE19F = false ∧ decodeWord 0xE19F = .error (.unknownOpcode 0xE19F) := by
  decide
theorem test_wf_familyF : wordWellFormed 0xF1FF = false ∧ decodeWord 0xF1FF = .error (.unknownOpcode 0xF1FF) := by
  decide

/-! ## Decoding: a word for each constructor, written out from R75 -/

theorem test_decode_control :
    decodeWord 0x00EE = .ok .ret ∧ decodeWord 0x1ABC = .ok (.jp 0xABC) ∧ decodeWord 0x2345 = .ok (.call 0x345) ∧
    decodeWord 0x3A5C = .ok (.seByte 0xA 0x5C) ∧ decodeWord 0x5120 = .ok (.seReg 0x1 0x2) ∧
    decodeWord 0x4A5C = .ok (.sneByte 0xA 0x5C) ∧ decodeWord 0x9120 = .ok (.sneReg 0x1 0x2) ∧
    decodeWord 0xB123 = .ok (.jpV0 0x123) := by decide
theorem test_decode_alu :
    decodeWord 0x6005 = .ok (.ldByte 0x0 0x05) ∧ decodeWord 0x8120 = .ok (.ldReg 0x1 0x2) ∧
    decodeWord 0x7003 = .ok (.addByte 0x0 0x03) ∧ decodeWord 0x8124 = .ok (.addReg 0x1 0x2) ∧
    decodeWord 0x8121 = .ok (.orReg 0x1 0x2) ∧ decodeWord 0x8122 = .ok (.andReg 0x1 0x2) ∧
    decodeWord 0x8123 = .ok (.xorReg 0x1 0x2) ∧ decodeWord 0xC30F = .ok (.rnd 0x3 0x0F) := by decide
theorem test_decode_flags :
    decodeWord 0x8AB5 = .ok (.sub 0xA 0xB) ∧ decodeWord 0x8AB7 = .ok (.subn 0xA 0xB) ∧
    decodeWord 0x8A06 = .ok (.shr 0xA) ∧ decodeWord 0x8AF6 = .ok (.shr 0xA) ∧
    decodeWord 0x8A0E = .ok (.shl 0xA) ∧ decodeWord 0x8AFE = .ok (.shl 0xA) := by decide
theorem test_decode_index_memory :
    decodeWord 0xA300 = .ok (.ldI 0x300) ∧ decodeWord 0xF21E = .ok (.addI 0x2) ∧ decodeWord 0xF529 = .ok (.ldF 0x5) ∧
    decodeWord 0xFF33 = .ok (.ldB 0xF) ∧ decodeWord 0xF255 = .ok (.stRegs 0x2) ∧
    decodeWord 0xF265 = .ok (.ldRegs 0x2) := by decide
theorem test_decode_display_keys_timers :
    decodeWord 0x00E0 = .ok .cls ∧ decodeWord 0xD345 = .ok (.drw 0x3 0x4 0x5) ∧ decodeWord 0xE19E = .ok (.skp 0x1) ∧
    decodeWord 0xE1A1 = .ok (.sknp 0x1) ∧ decodeWord 0xF307 = .ok (.ldVxDT 0x3) ∧
    decodeWord 0xF50A = .ok (.ldVxK 0x5) ∧ decodeWord 0xF015 = .ok (.ldDT 0x0) ∧
    decodeWord 0xF018 = .ok (.ldST 0x0) := by decide
/-- W5's words, and SHR with y = 0 (R83). -/
theorem test_encode :
    encode (.drw 0x3 0x4 0x5) = 0xD345 ∧ encode (.ldByte 0x0 0x05) = 0x6005 ∧ encode (.jp 0x200) = 0x1200 ∧
    encode (.sub 0xA 0xB) = 0x8AB5 ∧ encode (.ldB 0xF) = 0xFF33 ∧ encode (.shr 0xA) = 0x8A06 ∧
    encode (.skp 0x1) = 0xE19E ∧ encode (.sneReg 0x1 0x2) = 0x9120 := by decide
/-- Bytes are big-endian (R51), and what follows the instruction is left. -/
theorem test_decode_bytes :
    decodeBytes [0x60, 0x05, 0x70] = .ok (.ldByte 0x0 0x05, [0x70]) ∧ decodeBytes [0x60] = .error .truncated := by decide
theorem test_decode_table_word :
    decodeTableWord 16 0xD345 = some (.drw 0x3 0x4 0x5) ∧ decodeTableWord 16 0x5121 = none := by decide

/-! ## Fetch and decode faults -/

/-- V1: the fetch at 0xFFE faults whatever memory holds. -/
theorem test_fetch_fault :
    (ran 0x6011 (atPc r0 0xFFE)).map faultView = some (.halted, some ⟨.outOfBounds, 0xFFE, none⟩, 0xFFE) := by
  decide
/-- V4: an odd pc is fetched under `fetch`. -/
theorem test_fetch_odd : (ran 0x61AB (atPc r0 0x201)).map (fun t => (t.pc, t.reg 1)) = some (0x203, 0xAB) := by decide
/-- Q4: and faults under `fault`. -/
theorem test_fetch_odd_fault :
    (ran 0x61AB { atPc r0 0x201 with params := { Params.default with oddPc := .fault } }).map faultView =
      some (.halted, some ⟨.outOfBounds, 0x201, none⟩, 0x201) := by decide
/-- V6. -/
theorem test_unknown_opcode :
    (ran 0x5121 r0).map faultView = some (.halted, some ⟨.unknownOpcode, 0x200, some 0x5121⟩, 0x200) := by decide
/-- T6: a Halted core refuses a step. -/
theorem test_halted : step (r0.raise .outOfBounds none) = .refused .halted := rfl

/-! ## Control flow -/

/-- V11. -/
theorem test_ret :
    (ran 0x00EE { withSp (atPc r0 0x300) 1 with stack := r0.stack.set 0 0x206 }).map (fun t => (t.pc, t.sp)) =
      some (0x206, -1) := by decide
/-- V12. -/
theorem test_ret_underflow :
    (ran 0x00EE r0).map faultView = some (.halted, some ⟨.stackUnderflow, 0x200, some 0x00EE⟩, 0x200) := by decide
/-- V15. -/
theorem test_jp : (ran 0x1ABC r0).map (·.pc) = some 0xABC := by decide
/-- V19: the last free entry. -/
theorem test_call : (ran 0x2300 (withSp r0 15)).map (fun t => (t.pc, t.sp, t.stack[15])) = some (0x300, 15, 0x202) := by
  decide
/-- V20. -/
theorem test_call_overflow :
    (ran 0x2300 (withSp r0 16)).map faultView = some (.halted, some ⟨.stackOverflow, 0x200, some 0x2300⟩, 0x200) := by
  decide
/-- V24: a skip beyond the memory is no fault of the skip. -/
theorem test_se_byte : (ran 0x3000 (atPc r0 0xFFC)).map (·.pc) = some 0x1000 := by decide
/-- V22. -/
theorem test_se_byte_no : (ran 0x3311 (r0.setReg 3 0x10)).map (·.pc) = some 0x202 := by decide
/-- V25. -/
theorem test_se_reg : (ran 0x5120 (((atPc r0 0x210).setReg 1 7).setReg 2 7)).map (·.pc) = some 0x214 := by decide
/-- V29. -/
theorem test_sne_byte : (ran 0x4000 r0).map (·.pc) = some 0x202 := by decide
/-- V31. -/
theorem test_sne_reg : (ran 0x9120 ((r0.setReg 1 1).setReg 2 2)).map (·.pc) = some 0x204 := by decide
/-- V35: the sum is not masked to 12 bits. -/
theorem test_jp_v0 : (ran 0xBFFF (r0.setReg 0 0xFF)).map (·.pc) = some 0x10FE := by decide

/-! ## Registers, arithmetic and logic -/

/-- V38. -/
theorem test_ld_byte : (ran 0x6FAA r0).map (fun t => (t.reg vf, t.pc)) = some (0xAA, 0x202) := by decide
/-- V40. -/
theorem test_ld_reg : (ran 0x8F00 ((r0.setReg 0 0x12).setReg vf 1)).map (·.reg vf) = some 0x12 := by decide
/-- V42: it wraps, with no flag. -/
theorem test_add_byte : (ran 0x7001 (r0.setReg 0 0xFF)).map (fun t => (t.reg 0, t.reg vf)) = some (0, 0) := by decide
/-- V49: y = F uses the old VF. -/
theorem test_add_reg :
    (ran 0x80F4 ((r0.setReg 0 1).setReg vf 0xFF)).map (fun t => (t.reg 0, t.reg vf)) = some (0x00, 0x01) := by decide
/-- V50: x = F keeps the sum. -/
theorem test_add_reg_aliased : (ran 0x8F04 ((r0.setReg vf 0x80).setReg 0 0x90)).map (·.reg vf) = some 0x10 := by decide
/-- V51. -/
theorem test_or :
    (ran 0x8121 (((r0.setReg 1 0x0F).setReg 2 0xF0).setReg vf 7)).map (fun t => (t.reg 1, t.reg vf)) =
      some (0xFF, 7) := by decide
/-- V52. -/
theorem test_and :
    (ran 0x8122 (((r0.setReg 1 0x3C).setReg 2 0x0F).setReg vf 7)).map (fun t => (t.reg 1, t.reg vf)) =
      some (0x0C, 7) := by decide
/-- V53. -/
theorem test_xor :
    (ran 0x8123 (((r0.setReg 1 0xFF).setReg 2 0x0F).setReg vf 7)).map (fun t => (t.reg 1, t.reg vf)) =
      some (0xF0, 7) := by decide
/-- V55. -/
theorem test_sub :
    (ran 0x8125 ((r0.setReg 1 5).setReg 2 7)).map (fun t => (t.reg 1, t.reg vf)) = some (0xFE, 0) := by decide
/-- V60: y = F, the flag stays. -/
theorem test_sub_aliased :
    (ran 0x80F5 ((r0.setReg 0 5).setReg vf 7)).map (fun t => (t.reg 0, t.reg vf)) = some (0xFE, 0) := by decide
/-- V62. -/
theorem test_subn :
    (ran 0x8127 ((r0.setReg 1 5).setReg 2 7)).map (fun t => (t.reg 1, t.reg vf)) = some (2, 1) := by decide
/-- V64: x = F, the result stays. -/
theorem test_subn_aliased : (ran 0x8F17 ((r0.setReg vf 3).setReg 1 0x10)).map (·.reg vf) = some 0x0D := by decide
/-- V67: Vy is not read. -/
theorem test_shr :
    (ran 0x81A6 ((r0.setReg 1 1).setReg 0xA 0xFF)).map (fun t => (t.reg 1, t.reg vf)) = some (0, 1) := by decide
/-- V68. -/
theorem test_shr_aliased : (ran 0x8F06 (r0.setReg vf 6)).map (·.reg vf) = some 3 := by decide
/-- V69. -/
theorem test_shl : (ran 0x810E (r0.setReg 1 0x81)).map (fun t => (t.reg 1, t.reg vf)) = some (2, 1) := by decide
/-- V72. -/
theorem test_shl_aliased : (ran 0x8F0E (r0.setReg vf 0x81)).map (·.reg vf) = some 2 := by decide
/-- V74: a mask of zeros leaves zero, whatever the random byte is. -/
theorem test_rnd : (ran 0xC300 (r0.setReg 3 0x55)).map (fun t => (t.reg 3, t.pc)) = some (0, 0x202) := by
  have h : ran 0xC300 (r0.setReg 3 0x55) =
      some (((r0.setReg 3 0x55).withFetchWord 16 0xC300).drew.setReg 3 (Config.randByte 0 &&& 0)).goNext := rfl
  rw [h, show Config.randByte 0 &&& 0 = (0 : Byte) from BitVec.and_zero]; rfl
/-- Q8. -/
theorem test_alias_refused :
    step ({ r0 with params := { Params.default with vfAlias := .refuse } }.withFetchWord 16 0x8F04) = .refused .vfAlias :=
  rfl

/-! ## The index register and memory -/

/-- V77. -/
theorem test_ld_i : (ran 0xAFFF r0).map (·.i) = some 0xFFF := by decide
/-- V79: 16 bits are kept. -/
theorem test_add_i : (ran 0xF21E ((r0.setI 0xFFFF).setReg 2 1)).map (·.i) = some 0x0000 := by decide
/-- Q2. -/
theorem test_add_i_fault :
    (ran 0xF21E { (r0.setI 0xFFF).setReg 2 1 with params := { Params.default with iAdd := .fault } }).map
      (fun t => (faultView t, t.i)) = some ((.halted, some ⟨.outOfBounds, 0x200, some 0xF21E⟩, 0x200), 0xFFF) := by decide
/-- V82. -/
theorem test_ld_f : (ran 0xF529 (r0.setReg 5 0x0F)).map (·.i) = some 0x04B := by decide
/-- V83. -/
theorem test_ld_f_invalid :
    (ran 0xF529 ((r0.setReg 5 0x10).setI 0x123)).map (fun t => (faultView t, t.i)) =
      some ((.halted, some ⟨.invalidDigit, 0x200, some 0xF529⟩, 0x200), 0x123) := by decide
/-- V88: the last three bytes of memory. -/
theorem test_ld_b :
    (ran 0xF033 ((r0.setReg 0 0xFF).setI 0xFFD)).map (fun t => (t.mem.read 0xFFD, t.mem.read 0xFFE, t.mem.read 0xFFF, t.i)) =
      some (2, 5, 5, 0xFFD) := by decide
/-- V89. -/
theorem test_ld_b_fault :
    (ran 0xF033 ((r0.setReg 0 0xFF).setI 0xFFE)).map (fun t => (faultView t, t.mem.read 0xFFE)) =
      some ((.halted, some ⟨.outOfBounds, 0x200, some 0xF033⟩, 0x200), 0) := by decide
/-- V90. -/
theorem test_st_regs :
    (ran 0xF255 ((((r0.setReg 0 1).setReg 1 2).setReg 2 3).setI 0x400)).map
      (fun t => (t.mem.read 0x400, t.mem.read 0x401, t.mem.read 0x402, t.mem.read 0x403)) = some (1, 2, 3, 0) := by decide
/-- V93. -/
theorem test_st_regs_fault :
    (ran 0xF155 ((r0.setReg 0 1).setI 0xFFF)).map (fun t => (faultView t, t.mem.read 0xFFF)) =
      some ((.halted, some ⟨.outOfBounds, 0x200, some 0xF155⟩, 0x200), 0) := by decide
/-- V95. -/
theorem test_ld_regs :
    (ran 0xFF65 ((withByte r0 0xFFF 0x77).setI 0xFF0)).map (fun t => (t.reg vf, t.i)) = some (0x77, 0xFF0) := by
  decide
/-- V97. -/
theorem test_ld_regs_fault :
    (ran 0xF065 (r0.setI 0x1000)).map faultView = some (.halted, some ⟨.outOfBounds, 0x200, some 0xF065⟩, 0x200) := by decide

/-! ## The display -/

/-- V98. -/
theorem test_cls :
    (ran 0x00E0 (withPixel (withPixel r0 0 0) 63 31)).map (fun t => (t.fb.pixel 0 0, t.fb.pixel 63 31, t.pc)) =
      some (false, false, 0x202) := by decide
/-- V101: two bits, one of them on a lit pixel. -/
theorem test_drw_collision :
    (ran 0xD011 (withPixel ((withByte r0 0x20C 0xC0).setI 0x20C) 1 0)).map
      (fun t => (t.reg vf, t.fb.pixel 0 0, t.fb.pixel 1 0)) = some (1, true, false) := by decide
/-- V107: both coordinates wrap. -/
theorem test_drw_wraps :
    (ran 0xD012 ((((withByte (withByte r0 0x20C 0x80) 0x20D 0x80).setReg 0 0x40).setReg 1 0x3F).setI 0x20C)).map
      (fun t => (t.fb.pixel 0 31, t.fb.pixel 0 0, t.fb.pixel 1 0, t.reg vf)) = some (true, true, false, 0) := by decide

/-! ## Keys and timers -/

/-- V109. -/
theorem test_skp : (ran 0xE19E ((r0.setReg 1 5).setKeypad 0x0020 none)).map (·.pc) = some 0x204 := by decide
/-- Q5. -/
theorem test_skp_high :
    (ran 0xE19E { (r0.setReg 1 0x10).setKeypad 0xFFFF none with
      params := { Params.default with keyHigh := .notPressed } }).map (·.pc) = some 0x202 := by decide
/-- V111. -/
theorem test_sknp : (ran 0xE1A1 (r0.setReg 1 5)).map (·.pc) = some 0x204 := by decide
/-- V114. -/
theorem test_ld_vx_dt : (ran 0xF307 (r0.setDT 0x3C)).map (fun t => (t.reg 3, t.dt)) = some (0x3C, 0x3C) := by decide
/-- V115: the step completes with the state as it was. -/
theorem test_ld_vx_k_waits : ran 0xF50A r0 = some (r0.withFetchWord 16 0xF50A) := by decide
/-- V117. -/
theorem test_ld_vx_k :
    (ran 0xFF0A ((r0.setReg vf 1).setKeypad 0 (some 0))).map (fun t => (t.reg vf, t.pc, t.pending)) =
      some (0, 0x202, some 0) := by decide
/-- V118. -/
theorem test_ld_dt : (ran 0xF015 (r0.setReg 0 0x3C)).map (fun t => (t.dt, t.st)) = some (0x3C, 0) := by decide
/-- V120. -/
theorem test_ld_st : (ran 0xF018 (r0.setReg 0 0x10)).map (fun t => (t.st, t.dt)) = some (0x10, 0) := by decide
/-- T2 and T4: a timer stops at 0, and a Halted core ticks too. -/
theorem test_tick :
    ((r0.setST 1).tick.dt, (r0.setST 1).tick.st) = (0, 0) ∧
    (((r0.setDT 5).raise .outOfBounds none).tick.dt, ((r0.setDT 5).raise .outOfBounds none).tick.run) = (4, .halted) := by
  decide
/-- Q10. -/
theorem test_tick_wrap :
    ({ r0.setST 1 with params := { Params.default with timerAtZero := .wrap } }.tick.dt,
     { r0.setST 1 with params := { Params.default with timerAtZero := .wrap } }.tick.st) = (0xFF, 0x00) := by decide

/-! ## Host, launch and text -/

/-- T7: reset leaves Halted, with the image in memory. -/
theorem test_reset :
    (fun t : State => (t.pc, t.sp, t.reg 3, t.i, t.run, t.mem.read 1))
      ((withSp (((r0.setReg 3 0x44).setI 0x300).raise .stackUnderflow none) 5).hostReset
        [0xF0, 0x90] LaunchInputs.zero) =
      (0x200, -1, 0, 0, .running, 0x90) := by decide
/-- Under `launch_input` a reset takes the registers, I, the timers and the pixels from the launch (R38). -/
theorem test_reset_launch_input :
    (fun t : State => (t.reg 3, t.i, t.dt, t.st, t.fb.pixel 5 6, t.stack[0], t.pc))
      ({ r0 with params := { Params.default with resetRegs := .launchInput } }.hostReset []
        { LaunchInputs.zero with v := r0.v.set 3 0x44, i := 0x300, dt := 1, st := 2,
                                 fb := r0.fb.setPixel 5 6 true }) =
      (0x44, 0x300, 1, 2, true, 0, 0x200) := by decide
/-- GK1's glyph of digit F is where LD F,Vx points (R58, R193). -/
theorem test_font : customaryFont[0x04B]? = some 0xF0 ∧ customaryFont.length = 80 := ⟨rfl, rfl⟩
/-- `withFetchWord` places the word where the first step fetches it. -/
theorem test_with_fetch_word : (r0.withFetchWord 16 0xD345).fetch16 = .word 0xD345 := by decide
/-- R82's examples. -/
theorem test_asm_examples :
    asm (.ldByte 0 0x05) = "LD V0,0x05" ∧ asm (.addByte 0 0x03) = "ADD V0,0x03" ∧ asm (.jp 0x200) = "JP 0x200" := by decide
/-- The other operand spellings of R82, and SHR without its y (R83). -/
theorem test_asm_spellings :
    asm (.stRegs 0xA) = "LD [I],VA" ∧ asm (.shr 0xA) = "SHR VA" ∧ asm (.drw 1 2 0xF) = "DRW V1,V2,F" ∧
    asm (.ldI 0xABC) = "LD I,0xABC" ∧ asm (.jpV0 0x300) = "JP V0,0x300" ∧ asm (.ldVxK 5) = "LD V5,K" := by decide

/-! ## Witnesses: for each statement with hypotheses, a state and operands that meet them, clause by clause -/

/-- The reset state with other parameters. -/
abbrev withParams (s : State) (p : Params) : State := { s with params := p }

/-- The policy `refuse`. -/
abbrev refuseP : Params := { Params.default with vfAlias := .refuse }

/-- The reset state with 6005 at 0x200. -/
abbrev s6005 : State := r0.withFetchWord 16 0x6005

theorem witness_StepRunsDecodedInstruction :
    s6005.run = .running ∧ s6005.pc.toNat ≤ 0xFFD ∧ (s6005.params.oddPc = .fetch ∨ s6005.pc.toNat % 2 = 0) ∧
    decodeWord (s6005.mem.read s6005.pc.toNat ++ s6005.mem.read (s6005.pc.toNat + 1)) = .ok (.ldByte 0 5) := by decide

/-- The last address that is fetched, and under `fault` an even one. -/
theorem witness_StepRunsDecodedInstruction_bounds :
    ((atPc r0 0xFFD).pc.toNat ≤ 0xFFD ∧ (atPc r0 0xFFD).params.oddPc = .fetch) ∧
    (withParams r0 { Params.default with oddPc := .fault }).pc.toNat % 2 = 0 := by decide

theorem witness_StepTakesFetchAndDecodeFaults :
    ((atPc r0 0xFFE).run = .running ∧ (atPc r0 0xFFE).pc.toNat > 0xFFD) ∧
    (withParams (atPc r0 0xFFD) { Params.default with oddPc := .fault }).params.oddPc = .fault ∧
    (atPc r0 0xFFD).pc.toNat % 2 = 1 ∧
    ((atPc r0 0xFFD).pc.toNat ≤ 0xFFD ∧ (atPc r0 0xFFD).params.oddPc = .fetch ∧
      wordWellFormed ((atPc r0 0xFFD).mem.read 0xFFD ++ (atPc r0 0xFFD).mem.read 0xFFE) = false) := by decide

theorem witness_HaltedStepIsRefused : (r0.raise .outOfBounds none).run = .halted := rfl

theorem witness_FaultsArePrecise :
    r0.run = .running ∧ ∃ t, step r0 = .next t ∧ t.run = .halted := ⟨rfl, _, rfl, rfl⟩

theorem witness_RefusesExactlyUnassignedWords :
    wordWellFormed 0x00EF = false ∧ wordWellFormed 0x00EE = true ∧ wordWellFormed 0xFFFF = false := by decide

theorem witness_DecodingRoundTrip : decodeWord 0x8AF6 = .ok (.shr 0xA) ∧ decodeWord 0x1200 = .ok (.jp 0x200) := by decide

theorem witness_StoreIsSeenByNextFetch :
    (r0.setI 0x202).mem.wf = true ∧ (r0.setI 0x202).run = .running ∧ (r0.setI 0x202).params.oddPc = .fetch ∧
    1 ≤ (0x1#4).toNat ∧ (r0.setI 0x202).i = (r0.setI 0x202).pc + 2#16 ∧
    (r0.setI 0x202).i.toNat + (0x1#4).toNat ≤ 0xFFF ∧ (r0.setI 0x202).i.toNat ≤ 0xFFD := by decide

theorem witness_CallPushesReturnAddress : (withSp r0 0).sp < 15 ∧ (withSp r0 15).sp < 15 ∧ (withSp r0 16).sp = 15 := by
  decide

theorem witness_ReturnPopsAddress :
    ((0 : Fin 16).val : Int) = (withSp r0 1).sp ∧ ((15 : Fin 16).val : Int) = (withSp r0 16).sp ∧ r0.sp = -1 := by decide

theorem witness_CallThenReturn :
    (withSp r0 15).sp < 15 ∧ ∃ t, exec (.call 0x300) (withSp r0 15) = .next t ∧ ((15 : Fin 16).val : Int) = t.sp :=
  ⟨by decide, _, rfl, by decide⟩

theorem witness_SixteenCallsFillStack : (List.replicate 16 (0x200#12)).length = 16 ∧ r0.sp = -1 := by decide

theorem witness_AddRegistersWithCarry : (0xE#4) ≠ vf := by decide
theorem witness_SubtractWithNotBorrow : (0xE#4) ≠ vf ∧ (0x0#4) ≠ vf := by decide
theorem witness_ShiftsByOne : (0xE#4) ≠ vf := by decide
theorem witness_AliasedFlagLatched : r0.params.vfAlias = .latched ∧ (0xE#4) ≠ vf := by decide

theorem witness_RefusesExactlyAliasCases :
    ((withParams r0 refuseP).params.vfAlias = .refuse ∧ aliasCase (.drw 0 vf 1) = true) ∧
    exec (.sub 0 vf) (withParams r0 refuseP) = .refused .vfAlias := ⟨by decide, rfl⟩

/-- Each policy, and the two sides of `fault`'s bound. -/
theorem witness_AddToIndex :
    r0.params.iAdd = .keep16 ∧ (withParams r0 { Params.default with iAdd := .mask12 }).params.iAdd = .mask12 ∧
    (withParams r0 { Params.default with iAdd := .fault }).params.iAdd = .fault ∧
    ((r0.setReg 2 1).setI 0xFFE).i.toNat + ((r0.setReg 2 1).setI 0xFFE |>.reg 2).toNat ≤ 0xFFF ∧
    ((r0.setReg 2 1).setI 0xFFF).i.toNat + ((r0.setReg 2 1).setI 0xFFF |>.reg 2).toNat > 0xFFF := by decide

theorem witness_FontAddressOfDigit :
    ((r0.setReg 5 0x0F).reg 5).toNat ≤ 0xF ∧ ((r0.setReg 5 0x10).reg 5).toNat > 0xF := by decide

theorem witness_StoreDecimalDigits :
    r0.mem.wf = true ∧ (r0.setI 0xFFD).i.toNat + 2 ≤ 0xFFF ∧ (r0.setI 0xFFE).i.toNat + 2 > 0xFFF := by decide

theorem witness_StoreRegisterBlock :
    r0.mem.wf = true ∧ (r0.setI 0xFF0).i.toNat + (0xF#4).toNat ≤ 0xFFF ∧
    (r0.setI 0xFF1).i.toNat + (0xF#4).toNat > 0xFFF := by decide

theorem witness_LoadRegisterBlock :
    (r0.setI 0xFFF).i.toNat + (0x0#4).toNat ≤ 0xFFF ∧ (r0.setI 0x1000).i.toNat + (0x0#4).toNat > 0xFFF := by decide

/-- A lit pixel in the top left corner, the sprite byte 0x80 at 0x20C, I there. -/
abbrev sDraw : State := withPixel ((withByte r0 0x20C 0x80).setI 0x20C) 0 0

/-- The bounds, at n = 0 and at the last byte of memory; an alias case under `latched`; a hit on a lit pixel. -/
theorem witness_DrawTogglesSpritePixels :
    ¬ (r0.params.vfAlias = .refuse ∧ aliasCase (.drw vf 1 1) = true) ∧
    ¬ ((withParams r0 refuseP).params.vfAlias = .refuse ∧ aliasCase (.drw 0 1 1) = true) ∧
    ((0x0#4).toNat = 0 ∧ (r0.setI 0xFFF).i.toNat + (0x1#4).toNat - 1 ≤ 0xFFF) ∧
    SpriteHits sDraw (sDraw.reg 0) (sDraw.reg 1) 1 0 0 ∧ sDraw.fb.pixel 0 0 = true :=
  ⟨by decide, by decide, by decide, ⟨0, 0, by decide, by decide, by decide, by decide, by decide⟩, by decide⟩

/-- With n = 0 nothing is hit. -/
theorem witness_DrawTogglesSpritePixels_none :
    ¬ ∃ px py, SpriteHits sDraw (sDraw.reg 0) (sDraw.reg 1) 0 px py ∧ sDraw.fb.pixel px py = true := by
  rintro ⟨_, _, ⟨_, _, hr, _⟩, _⟩
  exact absurd hr (by simp)

theorem witness_DrawOutOfBoundsFaults :
    ¬ (r0.params.vfAlias = .refuse ∧ aliasCase (.drw 0 1 2) = true) ∧ (0x2#4).toNat ≥ 1 ∧
    (r0.setI 0xFFF).i.toNat + (0x2#4).toNat - 1 > 0xFFF := by decide

/-- The second draw from the state that the first one left. -/
theorem witness_DrawTwiceRestoresDisplay :
    ∃ t, exec (.drw 0 1 1) sDraw = .next t ∧
      ¬ (t.params.vfAlias = .refuse ∧ aliasCase (.drw 0 1 1) = true) ∧ sDraw.i.toNat + (0x1#4).toNat - 1 ≤ 0xFFF ∧
      t.i = sDraw.i ∧ t.reg 0 = sDraw.reg 0 ∧ t.reg 1 = sDraw.reg 1 ∧ SameMem sDraw t ∧ SamePixels t t :=
  ⟨_, rfl, by decide, by decide, by decide, by decide, by decide, fun _ => rfl, fun _ _ => rfl⟩

/-- The pixel clauses of the second draw's VF: a hit on an unlit pixel, and a sprite with a set bit. -/
theorem witness_DrawTwiceRestoresDisplay_flag :
    SpriteHits ((withByte r0 0x20C 0x80).setI 0x20C) 0 0 1 0 0 ∧ r0.fb.pixel 0 0 = false ∧
    (((withByte r0 0x20C 0x80).setI 0x20C).mem.read 0x20C).getLsbD 7 = true :=
  ⟨⟨0, 0, by decide, by decide, by decide, by decide, by decide⟩, by decide, by decide⟩

theorem witness_SkipsOnHeldKey : ((r0.setReg 1 0x0F).reg 1).toNat ≤ 0xF := by decide

theorem witness_SkipsOnHighKey :
    ((r0.setReg 1 0x10).reg 1).toNat > 0xF ∧ r0.params.keyHigh = .draw ∧
    (withParams r0 { Params.default with keyHigh := .notPressed }).params.keyHigh = .notPressed := by decide

theorem witness_WaitForKey : r0.pending = none ∧ (r0.setKeypad 0 (some 0xF)).pending = some 0xF := by decide

theorem witness_TickCountsDown :
    r0.params.timerAtZero = .stop ∧
    (withParams r0 { Params.default with timerAtZero := .wrap }).params.timerAtZero = .wrap := by decide

theorem witness_TickCommutesWithStep :
    (∀ x, (Instr.cls) ≠ .ldVxDT x ∧ (Instr.cls) ≠ .ldDT x ∧ (Instr.cls) ≠ .ldST x) ∧
    (∃ t, exec .cls r0 = .next t) ∧ exec (.shr vf) (withParams r0 refuseP) = .refused .vfAlias :=
  ⟨by decide, ⟨_, rfl⟩, rfl⟩

theorem witness_HostResetLoadsResetState :
    (0 < [0x60#8, 0x05#8].length ∧ [0x60#8, 0x05#8].length ≤ 0x1000) ∧ r0.params.resetRegs = .zero ∧
    (withParams r0 { Params.default with resetRegs := .launchInput }).params.resetRegs = .launchInput := by decide

/-- The two sides of the memory's size. -/
theorem witness_HostResetLoadsResetState_bounds :
    (List.replicate 0x1000 (0#8)).length ≤ 0x1000 ∧ (List.replicate 0x1001 (0#8)).length > 0x1000 :=
  ⟨Nat.le_of_eq List.length_replicate, Nat.lt_of_lt_of_eq (Nat.lt_succ_self _) List.length_replicate.symm⟩

theorem witness_LaunchImageIsWellFormed : customaryFont.length = 80 ∧ [0x60#8, 0x05#8].length ≤ 3584 := by decide

theorem witness_WritesOnlyListedRegisters :
    (∃ t, exec (.addReg 1 2) r0 = .next t) ∧ writesReg (.addReg 1 2) 0xE = false ∧ writesReg (.jp 0x200) vf = false :=
  ⟨⟨_, rfl⟩, by decide, by decide⟩

theorem witness_ReadsOnlyListedRegisters : readsReg (.addReg 1 2) vf = false ∧ readsReg (.stRegs 0xE) vf = false := by
  decide

theorem witness_MemoryAndPixelWriters :
    (∃ t, exec (.ldF 0) r0 = .next t) ∧ (∀ x, Instr.ldF 0 ≠ .ldB x ∧ Instr.ldF 0 ≠ .stRegs x) ∧
    (Instr.ldF 0 ≠ .cls ∧ ∀ x y n, Instr.ldF 0 ≠ .drw x y n) := ⟨⟨_, rfl⟩, by decide, by decide, by simp⟩

theorem witness_IndexStackTimerWriters :
    (∃ t, exec .cls r0 = .next t) ∧ ((∀ nnn, Instr.cls ≠ .ldI nnn) ∧ ∀ x, Instr.cls ≠ .addI x ∧ Instr.cls ≠ .ldF x) ∧
    ((∀ nnn, Instr.cls ≠ .call nnn) ∧ Instr.cls ≠ .ret) ∧ (∀ x, Instr.cls ≠ .ldDT x) ∧ (∀ x, Instr.cls ≠ .ldST x) :=
  ⟨⟨_, rfl⟩, by simp, by simp, by simp, by simp⟩

theorem witness_PcPaths :
    (r0.raise .outOfBounds none).run = .halted ∧
    (r0.run = .running ∧ ∃ t, step r0 = .next t ∧ t.run = .halted) ∧
    (∃ t, exec (.jp 0x300) r0 = .next t ∧ t.run = .running ∧ explicitTarget (.jp 0x300) r0 = some 0x300) ∧
    (∃ t, exec (.ldVxK 5) r0 = .next t ∧ explicitTarget (.ldVxK 5) r0 = none ∧ r0.pending = none) ∧
    (canSkip (.skp 1) = true ∧ canSkip .cls = false) ∧
    (skipHolds (.seByte 1 0) r0 ∧ ¬ skipHolds (.sneReg 1 2) r0 ∧ skipHolds (.sknp 1) r0 ∧ ¬ skipHolds (.skp 1) r0) :=
  ⟨rfl, ⟨rfl, _, rfl, rfl⟩, ⟨_, rfl, rfl, rfl⟩, ⟨_, rfl, rfl, rfl⟩, by decide, ⟨rfl, fun h => h rfl, rfl, nofun⟩⟩

theorem inv_s6005 : s6005.Inv := ⟨by decide, by decide, by decide, by decide⟩

theorem witness_StepKeepsInvariant : s6005.Inv ∧ ∃ t, step s6005 = .next t ∧ t.run = .running :=
  ⟨inv_s6005, _, rfl, rfl⟩

theorem witness_RunsKeepInvariant : s6005.Inv ∧ ∃ t, s6005.afterAll [.tick, .step, .step] = some t :=
  ⟨inv_s6005, _, rfl⟩

theorem witness_StepKeepsIndexBounded :
    (withParams s6005 { Params.default with iAdd := .mask12 }).IndexBounded ∧
    ∃ t, step (withParams s6005 { Params.default with iAdd := .mask12 }) = .next t :=
  ⟨fun _ => by decide, _, rfl⟩

end Sys2Proof.Tests
end

section
/-! PROOFS. The round trip of decoder and encoder (spec/30_encoding.md R75, R81). Patterns, shifted operands and the
mask of `clearY` are themselves encoded words, so OR and AND on them work field by field. -/

namespace Sys2Proof.Machine

/-! ## Bitwise operations on encoded words -/

theorem encodeA_or (f f' : Nibble) (n n' : Addr12) : encodeA f n ||| encodeA f' n' = encodeA (f ||| f') (n ||| n') :=
  BitVec.or_append

theorem encodeXK_or (f x f' x' : Nibble) (k k' : Byte) :
    encodeXK f x k ||| encodeXK f' x' k' = encodeXK (f ||| f') (x ||| x') (k ||| k') :=
  BitVec.or_append.trans (congrArg (· ++ (k ||| k')) BitVec.or_append)

theorem encodeXYN_or (f x y n f' x' y' n' : Nibble) :
    encodeXYN f x y n ||| encodeXYN f' x' y' n' = encodeXYN (f ||| f') (x ||| x') (y ||| y') (n ||| n') :=
  BitVec.or_append.trans <| congrArg (· ++ (n ||| n')) <|
    BitVec.or_append.trans <| congrArg (· ++ (y ||| y')) BitVec.or_append

theorem encodeXYN_and (f x y n f' x' y' n' : Nibble) :
    encodeXYN f x y n &&& encodeXYN f' x' y' n' = encodeXYN (f &&& f') (x &&& x') (y &&& y') (n &&& n') :=
  BitVec.and_append.trans <| congrArg (· ++ (n &&& n')) <|
    BitVec.and_append.trans <| congrArg (· ++ (y &&& y')) BitVec.and_append

/-! ## Encoded words are patterns with shifted operands (R72, R75) -/

theorem zeroExtend_addr (nnn : Addr12) : nnn.zeroExtend 16 = encodeA 0x0#4 nnn :=
  BitVec.setWidth_eq_append (by omega)

theorem zeroExtend_byte (kk : Byte) : kk.zeroExtend 16 = encodeXK 0x0#4 0x0#4 kk :=
  BitVec.setWidth_eq_append (by omega)

theorem zeroExtend_nibble (n : Nibble) : n.zeroExtend 16 = encodeXYN 0x0#4 0x0#4 0x0#4 n :=
  BitVec.setWidth_eq_append (by omega)

theorem atX_eq_encodeXK (x : RegIdx) : atX x = encodeXK 0x0#4 x 0x00#8 := by decide +revert

theorem atX_eq_encodeXYN (x : RegIdx) : atX x = encodeXYN 0x0#4 x 0x0#4 0x0#4 := by decide +revert

theorem atY_eq_encodeXYN (y : RegIdx) : atY y = encodeXYN 0x0#4 0x0#4 y 0x0#4 := by decide +revert

theorem encodeA_eq_or (f : Nibble) (nnn : Addr12) : encodeA f nnn = encodeA f 0x000#12 ||| nnn.zeroExtend 16 := by
  rw [zeroExtend_addr, encodeA_or, BitVec.or_zero, BitVec.zero_or]

/-- A row whose kk is part of the pattern. -/
theorem encodeXK_eq_or_atX (f : Nibble) (x : RegIdx) (kk : Byte) :
    encodeXK f x kk = encodeXK f 0x0#4 kk ||| atX x := by
  rw [atX_eq_encodeXK, encodeXK_or, BitVec.or_zero, BitVec.zero_or, BitVec.or_zero]

/-- A row whose kk is an operand. -/
theorem encodeXK_eq_or (f : Nibble) (x : RegIdx) (kk : Byte) :
    encodeXK f x kk = encodeXK f 0x0#4 0x00#8 ||| atX x ||| kk.zeroExtend 16 := by
  rw [← encodeXK_eq_or_atX, zeroExtend_byte, encodeXK_or, BitVec.or_zero, BitVec.or_zero, BitVec.zero_or]

theorem encodeXYN_eq_or_atX (f : Nibble) (x : RegIdx) (y n : Nibble) :
    encodeXYN f x y n = encodeXYN f 0x0#4 y n ||| atX x := by
  simp [atX_eq_encodeXYN, encodeXYN_or]

theorem encodeXYN_eq_or_atY (f : Nibble) (x y : RegIdx) (n : Nibble) :
    encodeXYN f x y n = encodeXYN f x 0x0#4 n ||| atY y := by
  simp [atY_eq_encodeXYN, encodeXYN_or]

/-- A row whose n is part of the pattern. -/
theorem encodeXYN_eq_or_atX_atY (f : Nibble) (x y : RegIdx) (n : Nibble) :
    encodeXYN f x y n = encodeXYN f 0x0#4 0x0#4 n ||| atX x ||| atY y := by
  rw [← encodeXYN_eq_or_atX, ← encodeXYN_eq_or_atY]

/-- A row whose n is an operand. -/
theorem encodeXYN_eq_or (f : Nibble) (x y : RegIdx) (n : Nibble) :
    encodeXYN f x y n = encodeXYN f 0x0#4 0x0#4 0x0#4 ||| atX x ||| atY y ||| n.zeroExtend 16 := by
  rw [← encodeXYN_eq_or_atX_atY, zeroExtend_nibble, encodeXYN_or]; simp

/-- The encoder writes R75's patterns. -/
theorem encode_eq_wordOf (i : Instr) : encode i = wordOf i := by
  cases i
  case cls | ret => rfl
  case jp | call | ldI | jpV0 => exact encodeA_eq_or ..
  case seByte | sneByte | ldByte | addByte | rnd => exact encodeXK_eq_or ..
  case skp | sknp | ldVxDT | ldVxK | ldDT | ldST | addI | ldF | ldB | stRegs | ldRegs => exact encodeXK_eq_or_atX ..
  case seReg | sneReg | ldReg | addReg | orReg | andReg | xorReg | sub | subn => exact encodeXYN_eq_or_atX_atY ..
  case shr | shl => exact encodeXYN_eq_or_atX ..
  case drw => exact encodeXYN_eq_or ..

/-! ## Decoding an encoded word -/

/-- SHR and SHL do not look at y (R73). -/
theorem decodeWord_shr (x y : RegIdx) : decodeWord (encodeXYN 0x8#4 x y 0x6#4) = .ok (.shr x) := by
  simp [decodeWord, decode8]

theorem decodeWord_shl (x y : RegIdx) : decodeWord (encodeXYN 0x8#4 x y 0xE#4) = .ok (.shl x) := by
  simp [decodeWord, decode8]

theorem decodeWord_encode (i : Instr) : decodeWord (encode i) = .ok i := by
  cases i
  case cls | ret => rfl
  case shr x => exact decodeWord_shr x 0x0#4
  case shl x => exact decodeWord_shl x 0x0#4
  case ldReg | addReg | orReg | andReg | xorReg | sub | subn => simp [encode, decodeWord, decode8]
  case skp | sknp => simp [encode, decodeWord, decodeE]
  case ldVxDT | ldVxK | ldDT | ldST | addI | ldF | ldB | stRegs | ldRegs => simp [encode, decodeWord, decodeF]
  -- the rows that the family alone decides, and the two whose last nibble must be 0
  all_goals simp [encode, decodeWord]

/-! ## Encoding a decoded word -/

theorem encodeA_of_fields {op : Word} {f : Nibble} {nnn : Addr12} (hf : fieldFamily op = f) (hn : fieldNNN op = nnn) :
    encodeA f nnn = op := by
  rw [← hf, ← hn, encodeA_fields]

theorem encodeXK_of_fields {op : Word} {f : Nibble} {kk : Byte} (hf : fieldFamily op = f) (hk : fieldKK op = kk) :
    encodeXK f (fieldX op) kk = op := by
  rw [← hf, ← hk, encodeXK_fields]

theorem encodeXYN_of_fields {op : Word} {f n : Nibble} (hf : fieldFamily op = f) (hn : fieldN op = n) :
    encodeXYN f (fieldX op) (fieldY op) n = op := by
  rw [← hf, ← hn, encodeXYN_fields]

theorem clearY_encodeXYN (f x y n : Nibble) : clearY (encodeXYN f x y n) = encodeXYN f x 0x0#4 n := by
  have mask : (0xFF0F#16 : Word) = encodeXYN 0xF#4 0xF#4 0x0#4 0xF#4 := rfl
  have ones (a : Nibble) : a &&& 0xF#4 = a := BitVec.and_allOnes
  rw [clearY, mask, encodeXYN_and, ones, ones, ones, BitVec.and_zero]

/-- What re-encoding the instruction of a word gives (R81): the word, with y = 0 on the XS rows. -/
def Reencodes (op : Word) (i : Instr) : Prop := encode i = if i.isXS then clearY op else op

theorem reencodes_of_encode {op : Word} {i : Instr} (hi : i.isXS = false) (h : encode i = op) : Reencodes op i := by
  simp [Reencodes, hi, h]

theorem reencodes_xs {op : Word} {i : Instr} {n : Nibble} (hi : i.isXS = true) (hf : fieldFamily op = 0x8#4)
    (hn : fieldN op = n) (he : encode i = encodeXYN 0x8#4 (fieldX op) 0x0#4 n) : Reencodes op i := by
  rw [Reencodes, if_pos hi, he, ← clearY_encodeXYN _ _ (fieldY op), encodeXYN_of_fields hf hn]

theorem decode0_reencodes {op : Word} {i : Instr} (hf : fieldFamily op = 0x0#4) (h : decode0 op = .ok i) :
    Reencodes op i := by
  unfold decode0 at h
  split at h <;> cases h
  all_goals exact reencodes_of_encode rfl (encodeA_of_fields hf ‹fieldNNN op = _› :)

theorem decode8_reencodes {op : Word} {i : Instr} (hf : fieldFamily op = 0x8#4) (h : decode8 op = .ok i) :
    Reencodes op i := by
  unfold decode8 at h
  split at h <;> cases h
  -- the arms of SHR and SHL
  case h_7 hn | h_9 hn => exact reencodes_xs rfl hf hn rfl
  all_goals exact reencodes_of_encode rfl (encodeXYN_of_fields hf ‹fieldN op = _›)

theorem decodeE_reencodes {op : Word} {i : Instr} (hf : fieldFamily op = 0xE#4) (h : decodeE op = .ok i) :
    Reencodes op i := by
  unfold decodeE at h
  split at h <;> cases h
  all_goals exact reencodes_of_encode rfl (encodeXK_of_fields hf ‹fieldKK op = _›)

theorem decodeF_reencodes {op : Word} {i : Instr} (hf : fieldFamily op = 0xF#4) (h : decodeF op = .ok i) :
    Reencodes op i := by
  unfold decodeF at h
  split at h <;> cases h
  all_goals exact reencodes_of_encode rfl (encodeXK_of_fields hf ‹fieldKK op = _›)

theorem decodeWord_reencodes {op : Word} {i : Instr} (h : decodeWord op = .ok i) : Reencodes op i := by
  unfold decodeWord at h
  -- one arm for each family, h_1 that of family 0 and h_16 that of family F
  split at h
  case h_1 hf => exact decode0_reencodes hf h
  case h_9 hf => exact decode8_reencodes hf h
  case h_15 hf => exact decodeE_reencodes hf h
  case h_2 hf | h_3 hf | h_11 hf | h_12 hf =>
    cases h; exact reencodes_of_encode rfl (encodeA_of_fields hf rfl)
  case h_4 hf | h_5 hf | h_7 hf | h_8 hf | h_13 hf =>
    cases h; exact reencodes_of_encode rfl (encodeXK_of_fields hf rfl)
  case h_6 hf | h_10 hf =>
    split at h <;> cases h
    exact reencodes_of_encode rfl (encodeXYN_of_fields hf ‹fieldN op = 0x0#4›)
  case h_14 hf => cases h; exact reencodes_of_encode rfl (encodeXYN_of_fields hf rfl)
  case h_16 =>
    have hf : fieldFamily op = 0xF#4 := by
      generalize fieldFamily op = f at *
      decide +revert
    exact decodeF_reencodes hf h

/-- Settles O2: words from patterns are the encoder's words, and the decoder is undone by the encoder up to y. -/
theorem decodingRoundTrip : Obligations.DecodingRoundTrip := by
  refine ⟨fun i => ?_, fun x y => ⟨?_, ?_⟩, fun op i => decodeWord_reencodes⟩
  · rw [← encode_eq_wordOf, decodeWord_encode]
  · rw [← encode_eq_wordOf, encode, ← encodeXYN_eq_or_atY, decodeWord_shr]
  · rw [← encode_eq_wordOf, encode, ← encodeXYN_eq_or_atY, decodeWord_shl]

end Sys2Proof.Machine
end

section
/-! PROOFS. Control flow (spec/40_control_flow.md): the jumps, the skips, CALL and RET. The rules of the return stack
are stated in the spec's SP first, so that CALL and RET only add the new pc. -/

namespace Sys2Proof.Machine

/-! ## The frame of a jump (R24) -/

theorem OnlyPc.jump (s : State) (w : Word) : OnlyPc s (s.jump w) :=
  ⟨fun _ => rfl, rfl, ⟨rfl, fun _ => rfl⟩, ⟨rfl, rfl⟩, ⟨rfl, rfl⟩, fun _ => rfl, fun _ _ => rfl, rfl, rfl, rfl⟩

/-- A change of stack and pc stays one when a jump follows. -/
theorem OnlyStackAndPc.jump {s t : State} (h : OnlyStackAndPc s t) (w : Word) : OnlyStackAndPc s (t.jump w) := h

/-- An address of 12 bits is the same number as a pc. -/
theorem toNat_zeroExtend_addr (nnn : Addr12) : (nnn.zeroExtend 16).toNat = nnn.toNat :=
  BitVec.toNat_setWidth_of_le (by omega)

/-! ## The return stack by SP (10_state.md R29, R30, R31) -/

theorem State.depth_lt_iff (s : State) : s.depth.val < 16 ↔ s.sp < 15 := by
  unfold State.sp; omega

theorem State.depth_pos_iff (s : State) : 0 < s.depth.val ↔ 0 ≤ s.sp := by
  unfold State.sp; omega

/-- The entry above the top takes the value pushed. -/
theorem State.push_of_sp_lt {s : State} (w : Word) (h : s.sp < 15) :
    ∃ t, s.push w = some t ∧ t.sp = s.sp + 1 ∧
      (∀ k : Fin 16, t.stack[k] = if (k.val : Int) = s.sp + 1 then w else s.stack[k]) ∧ OnlyStackAndPc s t := by
  have hd := s.depth_lt_iff.mpr h
  refine ⟨_, s.push_spec w hd, ?_, fun k => ?_,
    fun _ => rfl, rfl, ⟨rfl, rfl⟩, ⟨rfl, rfl⟩, fun _ => rfl, fun _ _ => rfl, rfl, rfl, rfl⟩
  · simp [State.sp]
  · have index : (k.val : Int) = s.sp + 1 ↔ s.depth.val = k.val := by unfold State.sp; omega
    simp [index, Vector.getElem_set]

/-- The entry popped is the one at SP, and it keeps its value. -/
theorem State.pop_of_sp_eq {s : State} {k : Fin 16} (h : (k.val : Int) = s.sp) :
    ∃ t, s.pop = some (s.stack[k], t) ∧ t.sp = s.sp - 1 ∧
      (∀ j : Fin 16, t.stack[j] = s.stack[j]) ∧ OnlyStackAndPc s t := by
  have hd : 0 < s.depth.val := s.depth_pos_iff.mpr (by omega)
  have index : s.depth.val - 1 = k.val := by unfold State.sp at h; omega
  have pop := s.pop_spec hd
  simp only [index] at pop
  exact ⟨_, pop, congrArg (· - 1) h, fun _ => rfl,
    fun _ => rfl, rfl, ⟨rfl, rfl⟩, ⟨rfl, rfl⟩, fun _ => rfl, fun _ _ => rfl, rfl, rfl, rfl⟩

/-! ## What CALL, RET and a skip answer -/

theorem State.trap_eq_halts (s : State) (kind : FaultKind) (i : Instr) :
    s.trap kind i = .next (halts s kind (some (encode i))) := rfl

theorem exec_call_of_push {s t : State} (nnn : Addr12) (h : s.push (s.pc + 2#16) = some t) :
    exec (.call nnn) s = .next (t.jump (nnn.zeroExtend 16)) := by
  simp only [exec, execCall, h]

theorem exec_call_of_full {s : State} (nnn : Addr12) (h : s.push (s.pc + 2#16) = none) :
    exec (.call nnn) s = s.trap .stackOverflow (.call nnn) := by
  simp only [exec, execCall, h]

theorem exec_ret_of_pop {s t : State} {target : Word} (h : s.pop = some (target, t)) :
    exec .ret s = .next (t.jump target) := by
  simp only [exec, execRet, h]

theorem exec_ret_of_empty {s : State} (h : s.pop = none) : exec .ret s = s.trap .stackUnderflow .ret := by
  simp only [exec, execRet, h]

/-- An instruction that skips by a test `c` of the condition `p`. -/
theorem exec_skip {i : Instr} {s : State} {c : Bool} {p : Prop} [Decidable p] (he : exec i s = .next (s.skipIf c))
    (hc : c = true ↔ p) :
    ∃ t, exec i s = .next t ∧ t.pc = s.pc + (if p then 4#16 else 2#16) ∧ OnlyPc s t := by
  rw [State.skipIf_eq] at he
  exact ⟨_, he, by simp only [State.jump_pc, hc], .jump s _⟩

/-! ## The statements -/

/-- Settles O15: JP is a jump to nnn, widened to a pc. -/
theorem jumpSetsPc : Obligations.JumpSetsPc :=
  fun nnn s => ⟨rfl, _, rfl, toNat_zeroExtend_addr nnn, .jump s _⟩

/-- Settles O16: CALL is a push of pc + 2 and a jump, and traps where the push fails. -/
theorem callPushesReturnAddress : Obligations.CallPushesReturnAddress := by
  refine fun nnn s => ⟨rfl, fun h => ?_, fun h => ?_⟩
  · obtain ⟨t, push, sp, stack, frame⟩ := State.push_of_sp_lt (s.pc + 2#16) h
    exact ⟨_, exec_call_of_push nnn push, toNat_zeroExtend_addr nnn, sp, stack, frame.jump _⟩
  · have full : ¬ s.depth.val < 16 := by rw [s.depth_lt_iff]; omega
    rw [exec_call_of_full nnn (s.push_full _ full), State.trap_eq_halts]

/-- Settles O17: RET is a pop and a jump to the entry popped, and traps where the pop fails. -/
theorem returnPopsAddress : Obligations.ReturnPopsAddress := by
  refine fun s => ⟨rfl, fun k h => ?_, fun h => ?_⟩
  · obtain ⟨t, pop, sp, stack, frame⟩ := State.pop_of_sp_eq h
    exact ⟨_, exec_ret_of_pop pop, rfl, sp, stack, frame.jump _⟩
  · have empty : ¬ 0 < s.depth.val := by rw [s.depth_pos_iff]; omega
    rw [exec_ret_of_empty (s.pop_empty empty), State.trap_eq_halts]

/-- Settles O20: each of the four forms skips by the Boolean test of its comparison. -/
theorem skipsOnComparison : Obligations.SkipsOnComparison := by
  refine fun x y kk s => ⟨⟨rfl, rfl, rfl, rfl⟩, ?_, ?_, ?_, ?_⟩
  · exact exec_skip rfl beq_iff_eq
  · exact exec_skip rfl beq_iff_eq
  · exact exec_skip rfl bne_iff_ne
  · exact exec_skip rfl bne_iff_ne

end Sys2Proof.Machine
end

section
/-! PROOFS. Registers, arithmetic and logic (spec/41_alu.md). There are two ways to complete: with Vx written, or with
VF and then Vx written (R140); the statements add the arithmetic of the result and of the flag. -/

namespace Sys2Proof.Machine

/-! ## The frame (R140) -/

theorem OnlyRegsAndPc.goNext (s : State) : OnlyRegsAndPc s s.goNext := (OnlyPc.jump s _).2

theorem OnlyRegsAndPc.setReg_goNext {s t : State} (h : OnlyRegsAndPc s t.goNext) (x : RegIdx) (b : Byte) :
    OnlyRegsAndPc s (t.setReg x b).goNext := h

/-! ## Instructions that set no flag -/

/-- An instruction that ends with `finishReg` writes Vx alone. -/
theorem exec_finishReg {i : Instr} {s : State} {x : RegIdx} {b : Byte} (he : exec i s = s.finishReg x b) :
    ∃ t, exec i s = .next t ∧ (∀ r, t.reg r = if r = x then b else s.reg r) ∧
      t.pc = s.pc + 2#16 ∧ OnlyRegsAndPc s t :=
  ⟨_, he, fun r => s.reg_setReg x r b, rfl, (OnlyRegsAndPc.goNext s).setReg_goNext x b⟩

/-- The same with Vx told apart from the other registers. -/
theorem exec_finishReg_split {i : Instr} {s : State} {x : RegIdx} {b : Byte} (he : exec i s = s.finishReg x b) :
    ∃ t, exec i s = .next t ∧ t.reg x = b ∧ (∀ r, r ≠ x → t.reg r = s.reg r) ∧
      t.pc = s.pc + 2#16 ∧ OnlyRegsAndPc s t := by
  obtain ⟨t, next, regs, pc, frame⟩ := exec_finishReg he
  exact ⟨t, next, by rw [regs, if_pos rfl], fun r hr => by rw [regs, if_neg hr], pc, frame⟩

/-! ## Instructions that set the flag (R140, R141) -/

/-- Where the alias policy does not refuse, a flag-setting instruction writes VF and then Vx. -/
theorem exec_finishFlagReg {i : Instr} {s : State} {c : Bool} {flag : Byte} {x : RegIdx} {b : Byte}
    (he : exec i s = s.unlessAlias c (s.finishFlagReg flag x b)) (hc : ¬ (s.params.vfAlias = .refuse ∧ c = true)) :
    ∃ t, exec i s = .next t ∧ (∀ r, t.reg r = if r = x then b else if r = vf then flag else s.reg r) ∧
      t.pc = s.pc + 2#16 ∧ OnlyRegsAndPc s t :=
  ⟨_, he.trans (if_neg hc), s.reg_setFlagThenReg flag x b, rfl,
    ((OnlyRegsAndPc.goNext s).setReg_goNext vf flag).setReg_goNext x b⟩

/-- With x not F and no alias case, the result is in Vx and the flag in VF, whatever the policy. -/
theorem exec_finishFlagReg_split {i : Instr} {s : State} {c : Bool} {flag : Byte} {x : RegIdx} {b : Byte}
    (he : exec i s = s.unlessAlias c (s.finishFlagReg flag x b)) (hx : x ≠ vf) (hc : c = false) :
    ∃ t, exec i s = .next t ∧ t.reg x = b ∧ t.reg vf = flag ∧ (∀ r, r ≠ x → r ≠ vf → t.reg r = s.reg r) ∧
      t.pc = s.pc + 2#16 ∧ OnlyRegsAndPc s t := by
  obtain ⟨t, next, regs, pc, frame⟩ := exec_finishFlagReg he (by simp [hc])
  refine ⟨t, next, ?_, ?_, fun r hrx hrf => ?_, pc, frame⟩
  · rw [regs, if_pos rfl]
  · rw [regs, if_neg hx.symm, if_pos rfl]
  · rw [regs, if_neg hrx, if_neg hrf]

theorem aliasX_eq_false {x : RegIdx} (hx : x ≠ vf) : aliasX x = false := beq_false_of_ne hx

theorem aliasXY_eq_false {x y : RegIdx} (hx : x ≠ vf) (hy : y ≠ vf) : aliasXY x y = false := by
  rw [aliasXY, beq_false_of_ne hx, beq_false_of_ne hy, Bool.or_self]

/-! ## Results and flags as numbers -/

theorem flagByte_decide (p : Prop) [Decidable p] : flagByte (decide p) = if p then 1 else 0 := by
  simp [flagByte]

theorem toNat_sub_eq_emod (a b : Byte) : ((a - b).toNat : Int) = (a.toNat - b.toNat : Int) % 256 := by
  have := b.isLt
  rw [BitVec.toNat_sub]
  omega

theorem toNat_ushiftRight_one (a : Byte) : (a >>> 1).toNat = a.toNat / 2 := by
  rw [BitVec.toNat_ushiftRight, Nat.shiftRight_eq_div_pow]

theorem toNat_shiftLeft_one (a : Byte) : (a <<< 1).toNat = a.toNat * 2 % 256 := by
  rw [BitVec.toNat_shiftLeft, Nat.shiftLeft_eq]

theorem toNat_shrFlag (a : Byte) : (shrFlag a).toNat = a.toNat % 2 :=
  (BitVec.toNat_and ..).trans (Nat.and_one_is_mod _)

/-- The bit shifted out to the left is bit 7, the quotient by 128. -/
theorem toNat_shlFlag (a : Byte) : (shlFlag a).toNat = a.toNat / 128 :=
  calc (shlFlag a).toNat = (a >>> 7).toNat % 2 := toNat_shrFlag (a >>> 7)
    _ = a.toNat / 128 % 2 := by rw [BitVec.toNat_ushiftRight, Nat.shiftRight_eq_div_pow]
    _ = a.toNat / 128 := Nat.mod_eq_of_lt (by omega)

/-- An instruction that leaves the difference `a - b` in Vx and its "NOT borrow" in VF (R149, R150). -/
theorem exec_difference {i : Instr} {s : State} {c : Bool} {a b : Byte} {x : RegIdx}
    (he : exec i s = s.unlessAlias c (s.finishFlagReg (notBorrowFlag a b) x (a - b))) (hx : x ≠ vf) (hc : c = false) :
    ∃ t, exec i s = .next t ∧ ((t.reg x).toNat : Int) = (a.toNat - b.toNat : Int) % 256 ∧
      t.reg vf = (if a.toNat ≥ b.toNat then 1 else 0) ∧
      (∀ r, r ≠ x → r ≠ vf → t.reg r = s.reg r) ∧ t.pc = s.pc + 2#16 ∧ OnlyRegsAndPc s t := by
  obtain ⟨t, next, vx, flag, rest⟩ := exec_finishFlagReg_split he hx hc
  refine ⟨t, next, ?_, ?_, rest⟩
  · rw [vx, toNat_sub_eq_emod]
  · rw [flag, notBorrowFlag, flagByte_decide]

/-! ## The statements -/

/-- Settles O24: ADD is no alias case when x is not F; its carry is the flag by definition. -/
theorem addRegistersWithCarry : Obligations.AddRegistersWithCarry := by
  intro x y s hx
  obtain ⟨t, next, vx, flag, rest⟩ :=
    exec_finishFlagReg_split (i := .addReg x y) (s := s) rfl hx (aliasX_eq_false hx)
  refine ⟨rfl, t, next, ?_, ?_, rest⟩
  · rw [vx, BitVec.toNat_add]
  · rw [flag, carryFlag, flagByte_decide]

/-- Settles O25: SUB and SUBN are the same difference with the operands exchanged. -/
theorem subtractWithNotBorrow : Obligations.SubtractWithNotBorrow := by
  intro x y s hx hy
  have noAlias := aliasXY_eq_false hx hy
  exact ⟨⟨rfl, rfl⟩, exec_difference rfl hx noAlias, exec_difference rfl hx noAlias⟩

/-- Settles O26: a shift's result and flag are quotient and remainder of the old Vx. -/
theorem shiftsByOne : Obligations.ShiftsByOne := by
  intro x s hx
  have noAlias := aliasX_eq_false hx
  refine ⟨⟨rfl, rfl⟩, ?_, ?_⟩
  · obtain ⟨t, next, vx, flag, rest⟩ := exec_finishFlagReg_split (i := .shr x) (s := s) rfl hx noAlias
    exact ⟨t, next, by rw [vx, toNat_ushiftRight_one], by rw [flag, toNat_shrFlag], rest⟩
  · obtain ⟨t, next, vx, flag, rest⟩ := exec_finishFlagReg_split (i := .shl x) (s := s) rfl hx noAlias
    exact ⟨t, next, by rw [vx, toNat_shiftLeft_one], by rw [flag, toNat_shlFlag], rest⟩

/-- Settles O22: the three write Vx alone; the sum of two bytes is modulo 256. -/
theorem loadsAndAddImmediate : Obligations.LoadsAndAddImmediate := by
  refine fun x y kk s => ⟨⟨rfl, rfl, rfl⟩, exec_finishReg rfl, exec_finishReg rfl, ?_⟩
  obtain ⟨t, next, vx, rest⟩ := exec_finishReg_split (i := .addByte x kk) (s := s) rfl
  exact ⟨t, next, by rw [vx, BitVec.toNat_add], rest⟩

/-- Settles O23: the three write Vx alone, and the operations on bytes are those on each bit. -/
theorem bitwiseLogic : Obligations.BitwiseLogic := by
  refine fun x y s => ⟨⟨rfl, rfl, rfl⟩, ?_, ?_, ?_⟩
  · obtain ⟨t, next, vx, rest⟩ := exec_finishReg_split (i := .orReg x y) (s := s) rfl
    exact ⟨t, next, fun k => by rw [vx, BitVec.getLsbD_or], rest⟩
  · obtain ⟨t, next, vx, rest⟩ := exec_finishReg_split (i := .andReg x y) (s := s) rfl
    exact ⟨t, next, fun k => by rw [vx, BitVec.getLsbD_and], rest⟩
  · obtain ⟨t, next, vx, rest⟩ := exec_finishReg_split (i := .xorReg x y) (s := s) rfl
    exact ⟨t, next, fun k => by rw [vx, BitVec.getLsbD_xor], rest⟩

end Sys2Proof.Machine
end

section
/-! PROOFS. The index register (spec/42_index_memory.md R191, R193). An instruction that writes I and advances keeps
everything else; the statements add the number that it writes. -/

namespace Sys2Proof.Machine

/-! ## Writing I (R191, R193) -/

theorem OnlyIndexAndPc.setI_goNext (s : State) (w : Word) : OnlyIndexAndPc s (s.setI w).goNext :=
  have ⟨regs, _, rest⟩ := OnlyPc.jump s (s.pc + 2#16)
  ⟨regs, rest⟩

/-- An instruction that ends by writing I and advancing writes I alone. -/
theorem exec_setI {i : Instr} {s : State} {w : Word} (he : exec i s = .next (s.setI w).goNext) :
    ∃ t, exec i s = .next t ∧ t.i = w ∧ t.pc = s.pc + 2#16 ∧ OnlyIndexAndPc s t :=
  ⟨_, he, rfl, rfl, .setI_goNext s w⟩

/-! ## What LD F answers (R193) -/

theorem exec_ldF_of_digit {x : RegIdx} {s : State} (h : (s.reg x).toNat ≤ 0xF) :
    exec (.ldF x) s = .next (s.setI (fontAddress (s.reg x))).goNext :=
  if_neg (Nat.not_lt.mpr h)

theorem exec_ldF_of_not_digit {x : RegIdx} {s : State} (h : (s.reg x).toNat > 0xF) :
    exec (.ldF x) s = s.trap .invalidDigit (.ldF x) :=
  if_pos h

/-- Five times a byte fits in I. -/
theorem toNat_fontAddress (b : Byte) : (fontAddress b).toNat = b.toNat * 5 :=
  Nat.mod_eq_of_lt (by omega)

/-! ## The statements -/

/-- Settles O30: LD I writes nnn, widened to 16 bits, to I alone. -/
theorem loadIndex : Obligations.LoadIndex := by
  intro nnn s
  obtain ⟨t, next, index, rest⟩ := exec_setI (i := .ldI nnn) (s := s) rfl
  exact ⟨rfl, t, next, by rw [index, toNat_zeroExtend_addr], rest⟩

/-- Settles O32: LD F writes a digit's font address to I alone, and traps on any other byte. -/
theorem fontAddressOfDigit : Obligations.FontAddressOfDigit := by
  refine fun x s => ⟨rfl, fun digit => ?_, fun notDigit => ?_⟩
  · obtain ⟨t, next, index, rest⟩ := exec_setI (exec_ldF_of_digit digit)
    exact ⟨t, next, by rw [index, toNat_fontAddress], rest⟩
  · rw [exec_ldF_of_not_digit notDigit, State.trap_eq_halts]

end Sys2Proof.Machine
end

section
/-! PROOFS. The display (spec/43_display.md R220). An instruction that replaces the pixels and advances keeps everything
else. -/

namespace Sys2Proof.Machine

/-- An instruction that ends by replacing the pixels and advancing keeps what an advance keeps, but for the pixels. -/
theorem exec_setFB {i : Instr} {s : State} {f : FrameBuffer} (he : exec i s = .next (s.setFB f).goNext) :
    ∃ t, exec i s = .next t ∧ t.fb = f ∧ t.pc = s.pc + 2#16 ∧ SameRegs s t ∧
      SameIndex s t ∧ SameStack s t ∧ SameTimers s t ∧ SameRun s t ∧ SameMem s t ∧ SamePorts s t :=
  have ⟨regs, index, stack, timers, run, mem, _, ports⟩ := OnlyPc.jump s (s.pc + 2#16)
  ⟨_, he, rfl, rfl, regs, index, stack, timers, run, mem, ports⟩

/-- Settles O36: CLS replaces the pixels by the cleared display, whose pixels are all 0. -/
theorem clearDisplay : Obligations.ClearDisplay := by
  intro s
  obtain ⟨t, next, fb, rest⟩ := exec_setFB (i := .cls) (s := s) rfl
  exact ⟨rfl, t, next, fun px py => by rw [fb, FrameBuffer.pixel_clear], rest⟩

end Sys2Proof.Machine
end

section
/-! PROOFS. The timer instructions (spec/44_keys_timers.md R252, R254, R255). LD Vx,DT writes a general register;
LD DT,Vx and LD ST,Vx are the same write of both timers, in which the other timer is given its own value. -/

namespace Sys2Proof.Machine

/-- An instruction that ends by writing the timers and advancing keeps what an advance keeps, but for the timers. -/
theorem exec_setTimers {i : Instr} {s : State} {d e : Byte} (he : exec i s = .next ((s.setDT d).setST e).goNext) :
    ∃ t, exec i s = .next t ∧ t.dt = d ∧ t.st = e ∧ t.pc = s.pc + 2#16 ∧ SameRegs s t ∧
      SameIndex s t ∧ SameStack s t ∧ SameRun s t ∧ SameMem s t ∧ SamePixels s t ∧ SamePorts s t :=
  have ⟨regs, index, stack, _, rest⟩ := OnlyPc.jump s (s.pc + 2#16)
  ⟨_, he, rfl, rfl, rfl, regs, index, stack, rest⟩

/-- Settles O43: LD Vx,DT writes DT to Vx alone; the other two write Vx to one timer and keep the other. -/
theorem timerInstructions : Obligations.TimerInstructions := by
  refine fun x s => ⟨⟨rfl, rfl, rfl⟩, exec_finishReg rfl, exec_setTimers (e := s.st) rfl, ?_⟩
  obtain ⟨t, next, dt, st, rest⟩ := exec_setTimers (i := .ldST x) (s := s) (d := s.dt) rfl
  exact ⟨t, next, st, dt, rest⟩

end Sys2Proof.Machine
end

section
/-! PROOFS. The decoder, the descriptor table and the operand fields (spec/30_encoding.md R72, R74 to R79). A row's test
is a test of fields, since its mask covers whole fields; the decoder's arms fix those fields one after the other. -/

namespace Sys2Proof.Machine

/-! ## Masked words are encoded words (R72) -/

theorem encodeA_and (f f' : Nibble) (n n' : Addr12) : encodeA f n &&& encodeA f' n' = encodeA (f &&& f') (n &&& n') :=
  BitVec.and_append

theorem encodeXK_and (f x f' x' : Nibble) (k k' : Byte) :
    encodeXK f x k &&& encodeXK f' x' k' = encodeXK (f &&& f') (x &&& x') (k &&& k') :=
  BitVec.and_append.trans (congrArg (· ++ (k &&& k')) BitVec.and_append)

theorem and_mask_nibble (a : Nibble) : a &&& 0xF#4 = a := BitVec.and_allOnes

theorem and_mask_byte (a : Byte) : a &&& 0xFF#8 = a := BitVec.and_allOnes

theorem and_mask_addr (a : Addr12) : a &&& 0xFFF#12 = a := BitVec.and_allOnes

theorem and_mask_family (op : Word) : op &&& 0xF000#16 = encodeA (fieldFamily op) 0x000#12 := by
  have mask : 0xF000#16 = encodeA 0xF#4 0x000#12 := rfl
  conv_lhs => rw [← encodeA_fields op]
  rw [mask, encodeA_and, and_mask_nibble, BitVec.and_zero]

theorem and_mask_family_n (op : Word) :
    op &&& 0xF00F#16 = encodeXYN (fieldFamily op) 0x0#4 0x0#4 (fieldN op) := by
  have mask : 0xF00F#16 = encodeXYN 0xF#4 0x0#4 0x0#4 0xF#4 := rfl
  conv_lhs => rw [← encodeXYN_fields op]
  rw [mask, encodeXYN_and, and_mask_nibble, and_mask_nibble, BitVec.and_zero, BitVec.and_zero]

theorem and_mask_family_kk (op : Word) : op &&& 0xF0FF#16 = encodeXK (fieldFamily op) 0x0#4 (fieldKK op) := by
  have mask : 0xF0FF#16 = encodeXK 0xF#4 0x0#4 0xFF#8 := rfl
  conv_lhs => rw [← encodeXK_fields op]
  rw [mask, encodeXK_and, and_mask_nibble, and_mask_byte, BitVec.and_zero]

theorem and_mask_x (op : Word) : op &&& 0x0F00#16 = atX (fieldX op) := by
  have mask : 0x0F00#16 = encodeXYN 0x0#4 0xF#4 0x0#4 0x0#4 := rfl
  conv_lhs => rw [← encodeXYN_fields op]
  rw [mask, encodeXYN_and, and_mask_nibble, BitVec.and_zero, BitVec.and_zero, BitVec.and_zero, atX_eq_encodeXYN]

theorem and_mask_y (op : Word) : op &&& 0x00F0#16 = atY (fieldY op) := by
  have mask : 0x00F0#16 = encodeXYN 0x0#4 0x0#4 0xF#4 0x0#4 := rfl
  conv_lhs => rw [← encodeXYN_fields op]
  rw [mask, encodeXYN_and, and_mask_nibble, BitVec.and_zero, BitVec.and_zero, BitVec.and_zero, atY_eq_encodeXYN]

theorem and_mask_n (op : Word) : op &&& 0x000F#16 = (fieldN op).zeroExtend 16 := by
  have mask : 0x000F#16 = encodeXYN 0x0#4 0x0#4 0x0#4 0xF#4 := rfl
  conv_lhs => rw [← encodeXYN_fields op]
  rw [mask, encodeXYN_and, and_mask_nibble, BitVec.and_zero, BitVec.and_zero, BitVec.and_zero, zeroExtend_nibble]

theorem and_mask_kk (op : Word) : op &&& 0x00FF#16 = (fieldKK op).zeroExtend 16 := by
  have mask : 0x00FF#16 = encodeXK 0x0#4 0x0#4 0xFF#8 := rfl
  conv_lhs => rw [← encodeXK_fields op]
  rw [mask, encodeXK_and, and_mask_byte, BitVec.and_zero, BitVec.and_zero, zeroExtend_byte]

theorem and_mask_nnn (op : Word) : op &&& 0x0FFF#16 = (fieldNNN op).zeroExtend 16 := by
  have mask : 0x0FFF#16 = encodeA 0x0#4 0xFFF#12 := rfl
  conv_lhs => rw [← encodeA_fields op]
  rw [mask, encodeA_and, and_mask_addr, BitVec.and_zero, zeroExtend_addr]

theorem ushiftRight_atX (x : RegIdx) : atX x >>> 8 = x.zeroExtend 16 := by decide +revert

theorem ushiftRight_atY (y : RegIdx) : atY y >>> 4 = y.zeroExtend 16 := by decide +revert

/-! ## When a row's descriptor matches (R74) -/

/-- A row whose pattern is a whole word. -/
@[simp] theorem hits_word (p : Word) (b : Word → Instr) (op : Word) :
    (⟨0xFFFF#16, p, b⟩ : Descriptor).hits op =
      (fieldFamily op == p.extractLsb' 12 4 && fieldNNN op == p.extractLsb' 0 12) := by
  rw [Bool.eq_iff_iff, Descriptor.hits, show op &&& 0xFFFF#16 = op from BitVec.and_allOnes, Bool.and_eq_true,
    beq_iff_eq, beq_iff_eq, beq_iff_eq]
  refine ⟨fun h => by rw [h]; exact ⟨rfl, rfl⟩, fun ⟨hf, hn⟩ => ?_⟩
  rw [← encodeA_fields op, ← encodeA_fields p, hf, hn]; rfl

/-- A row that the family decides. -/
@[simp] theorem hits_family (p : Word) (b : Word → Instr) (op : Word) (hp : p &&& 0xF000#16 = p) :
    (⟨0xF000#16, p, b⟩ : Descriptor).hits op = (fieldFamily op == p.extractLsb' 12 4) := by
  rw [and_mask_family] at hp
  rw [Bool.eq_iff_iff, Descriptor.hits, and_mask_family, beq_iff_eq, beq_iff_eq]
  refine ⟨fun h => ?_, fun h => by rw [h]; exact hp⟩
  · rw [show p = _ from h.symm]; exact (fieldFamily_encodeA ..).symm

/-- A row that the family and the last nibble decide. -/
@[simp] theorem hits_family_n (p : Word) (b : Word → Instr) (op : Word) (hp : p &&& 0xF00F#16 = p) :
    (⟨0xF00F#16, p, b⟩ : Descriptor).hits op =
      (fieldFamily op == p.extractLsb' 12 4 && fieldN op == p.extractLsb' 0 4) := by
  rw [and_mask_family_n] at hp
  rw [Bool.eq_iff_iff, Descriptor.hits, and_mask_family_n, Bool.and_eq_true, beq_iff_eq, beq_iff_eq, beq_iff_eq]
  refine ⟨fun h => ?_, fun ⟨hf, hn⟩ => ?_⟩
  · rw [show p = _ from h.symm]; exact ⟨(fieldFamily_encodeXYN ..).symm, (fieldN_encodeXYN ..).symm⟩
  · rw [hf, hn]; exact hp

/-- A row that the family and the last byte decide. -/
@[simp] theorem hits_family_kk (p : Word) (b : Word → Instr) (op : Word) (hp : p &&& 0xF0FF#16 = p) :
    (⟨0xF0FF#16, p, b⟩ : Descriptor).hits op =
      (fieldFamily op == p.extractLsb' 12 4 && fieldKK op == p.extractLsb' 0 8) := by
  rw [and_mask_family_kk] at hp
  rw [Bool.eq_iff_iff, Descriptor.hits, and_mask_family_kk, Bool.and_eq_true, beq_iff_eq, beq_iff_eq, beq_iff_eq]
  refine ⟨fun h => ?_, fun ⟨hf, hk⟩ => ?_⟩
  · rw [show p = _ from h.symm]; exact ⟨(fieldFamily_encodeXK ..).symm, (fieldKK_encodeXK ..).symm⟩
  · rw [hf, hk]; exact hp

/-- A family that is none of the first fifteen is F. -/
theorem family_eq_F {f : Nibble}
    (h : f ∉ [0x0#4, 0x1#4, 0x2#4, 0x3#4, 0x4#4, 0x5#4, 0x6#4, 0x7#4, 0x8#4, 0x9#4, 0xA#4, 0xB#4, 0xC#4, 0xD#4,
      0xE#4]) :
    f = 0xF#4 := by
  decide +revert

/-- Settles O4: on each arm of the dispatch the rows of the table are tests of fields that the arm has fixed. -/
theorem dispatchIsTableScan : Obligations.DispatchIsTableScan := by
  intro op
  unfold decodeWord scanWord descriptors descriptorsA descriptorsB descriptorsC
  split
  case h_1 => unfold decode0; split <;> simp_all [scanFrom]
  case h_9 => unfold decode8; split <;> simp_all [scanFrom]
  case h_15 => unfold decodeE; split <;> simp_all [scanFrom]
  case h_16 =>
    have hf : fieldFamily op = 0xF#4 := family_eq_F (by simp_all)
    unfold decodeF; split <;> simp_all [scanFrom]
  all_goals simp_all [scanFrom]

/-- Two rows that one word matches have patterns that agree where both masks look. -/
theorem pattern_and_mask_of_hits {d e : Descriptor} {op : Word} (hd : d.hits op = true) (he : e.hits op = true) :
    d.pattern &&& e.mask = e.pattern &&& d.mask := by
  simp only [Descriptor.hits, beq_iff_eq] at hd he
  rw [← hd, ← he, BitVec.and_assoc, BitVec.and_assoc, BitVec.and_comm d.mask]

/-- No two rows of the table have patterns that agree where both masks look. -/
theorem descriptors_disjoint : descriptors.Pairwise fun d e => d.pattern &&& e.mask ≠ e.pattern &&& d.mask := by
  decide

/-- Settles O5: two rows that one word matched would agree where both masks look, and no two rows do. -/
theorem tableRowsDoNotOverlap : Obligations.TableRowsDoNotOverlap := by
  intro op
  have hits : ∀ d ∈ descriptors.filter (·.hits op), d.hits op = true := fun d hd => (List.mem_filter.mp hd).2
  have disjoint := descriptors_disjoint.filter (·.hits op)
  match h : descriptors.filter (·.hits op) with
  | [] | [_] => simp [h]
  | d :: e :: _ =>
    rw [h] at hits disjoint
    have agree := pattern_and_mask_of_hits (hits d (by simp)) (hits e (by simp))
    exact absurd agree (List.rel_of_pairwise_cons disjoint (by simp))

/-- R79's check of family 8 names the unassigned nibbles, the decoder the assigned ones. -/
theorem assigned8_eq (n : Nibble) :
    assigned8 n = [0x0#4, 0x1#4, 0x2#4, 0x3#4, 0x4#4, 0x5#4, 0x6#4, 0x7#4, 0xE#4].contains n := by
  decide +revert

/-- Settles O6: on each arm of the dispatch the check of R79 is a test of the field that the arm matches on. -/
theorem refusesExactlyUnassignedWords : Obligations.RefusesExactlyUnassignedWords := by
  intro op
  unfold decodeWord
  split
  case h_1 => unfold decode0; split <;> simp_all [wordWellFormed_eq, assigned0]
  case h_9 => unfold decode8; split <;> simp_all [wordWellFormed_eq, assigned8_eq]
  case h_15 => unfold decodeE; split <;> simp_all [wordWellFormed_eq, assignedE]
  case h_16 =>
    have hf : fieldFamily op = 0xF#4 := family_eq_F (by simp_all)
    unfold decodeF; split <;> simp_all [wordWellFormed_eq, assignedF]
  all_goals simp_all [wordWellFormed_eq, assigned59]

/-- Settles O3: both halves are lemmas of the round trip. -/
theorem decodeOfEncode : Obligations.DecodeOfEncode := fun i => ⟨decodeWord_encode i, encode_eq_wordOf i⟩

/-- Settles O7: the mask leaves the field in its place, and the shift takes it down. -/
theorem fieldsAreMaskAndShift : Obligations.FieldsAreMaskAndShift := by
  refine fun op => ⟨?_, ?_, (and_mask_n op).symm, (and_mask_kk op).symm, (and_mask_nnn op).symm⟩
  · rw [and_mask_x, ushiftRight_atX]
  · rw [and_mask_y, ushiftRight_atY]

/-- Settles O1: the words of the examples. -/
theorem decodesExampleWords : Obligations.DecodesExampleWords := ⟨rfl, rfl, rfl, rfl, rfl, rfl, rfl, rfl⟩

end Sys2Proof.Machine
end

section
/-! PROOFS. The step (spec/60_exceptions.md R281 to R286, R300; 20_memory.md R52, R55): which of its cases a state is
in, and what its outcomes are. `step_cases` and `exec_ends` say what can happen; the word of a fault's record is the fetched
one because an instruction that can fault re-encodes to it. -/

namespace Sys2Proof.Machine

/-! ## The fetch (20_memory.md R55) -/

theorem pc_odd_iff (s : State) : s.pc.getLsbD 0 = true ↔ s.pc.toNat % 2 = 1 := by
  rw [BitVec.getLsbD, Nat.testBit_zero, decide_eq_true_iff]

theorem State.fetch16_of_le {s : State} (hpc : s.pc.toNat ≤ 0xFFD)
    (ho : s.params.oddPc = .fetch ∨ s.pc.toNat % 2 = 0) :
    s.fetch16 = .word (s.mem.read s.pc.toNat ++ s.mem.read (s.pc.toNat + 1)) := by
  refine s.fetch16_word hpc ?_
  rintro ⟨hf, hodd⟩
  rw [pc_odd_iff] at hodd
  rcases ho with ho | ho
  · exact absurd (ho.symm.trans hf) nofun
  · omega

theorem State.fetch16_of_gt {s : State} (hpc : s.pc.toNat > 0xFFD) : s.fetch16 = .outOfBounds := if_pos hpc

theorem State.fetch16_of_odd {s : State} (hf : s.params.oddPc = .fault) (ho : s.pc.toNat % 2 = 1) :
    s.fetch16 = .outOfBounds := by
  rcases s.fetch16_spec with ⟨he, -⟩ | ⟨-, -, hn⟩
  · exact he
  · exact absurd ⟨hf, (pc_odd_iff s).mpr ho⟩ hn

/-! ## The step, case by case (R285, R300) -/

theorem step_of_halted {s : State} (hr : s.run = .halted) : step s = .refused .halted := by
  rw [step, hr]

theorem step_of_fetch_fault {s : State} (hr : s.run = .running) (hf : s.fetch16 = .outOfBounds) :
    step s = .next (halts s .outOfBounds none) := by
  rw [step, hr, hf]; rfl

theorem step_of_decode_error {s : State} {op : Word} {e : DecodeError} (hr : s.run = .running)
    (hf : s.fetch16 = .word op) (hd : decodeWord op = .error e) :
    step s = .next (halts s .unknownOpcode (some op)) := by
  simp only [step, hr, hf, hd]; rfl

theorem step_of_decode_ok {s : State} {op : Word} {i : Instr} (hr : s.run = .running) (hf : s.fetch16 = .word op)
    (hd : decodeWord op = .ok i) : step s = exec i s := by
  simp only [step, hr, hf, hd]

/-! ## The word of a fault's record (R282) -/

theorem encode_of_decodeWord {op : Word} {i : Instr} (h : decodeWord op = .ok i) (hi : i.isXS = false) :
    encode i = op := by
  have re := decodeWord_reencodes h
  rwa [Reencodes, hi, if_neg Bool.false_ne_true] at re

/-- SHR and SHL, whose word may have any y, have no fault of their own. -/
theorem exec_run_of_isXS {i : Instr} {s t : State} (hi : i.isXS = true) (h : exec i s = .next t) : t.run = s.run := by
  have runs {c : Bool} {flag r : Byte} {x : RegIdx} (h : s.unlessAlias c (s.finishFlagReg flag x r) = .next t) :
      t.run = s.run := by
    rcases s.unlessAlias_spec c (s.finishFlagReg flag x r) with ⟨-, -, he⟩ | ⟨-, he⟩
    · rw [he] at h; cases h
    · rw [he] at h; cases h; rfl
  cases i
  case shr | shl => exact runs h
  all_goals cases hi

/-- A Running core's instruction that ends Halted has taken a fault of its own, with its own word in the record. -/
theorem exec_halts {op : Word} {i : Instr} {s t : State} (hr : s.run = .running) (hd : decodeWord op = .ok i)
    (h : exec i s = .next t) (ht : t.run = .halted) : ∃ kind, t = halts s kind (some op) := by
  rcases exec_ends i s with ⟨-, -, he⟩ | ⟨k, he⟩ | ⟨u, he, hu, -⟩
  · rw [he] at h; cases h
  · have noXS : i.isXS = false := by
      by_contra hi
      have run := exec_run_of_isXS (Bool.not_eq_false _ ▸ hi) h
      rw [run, hr] at ht; cases ht
    rw [he, encode_of_decodeWord hd noXS] at h
    cases h; exact ⟨k, rfl⟩
  · rw [he] at h; cases h
    rw [hu, hr] at ht; cases ht

/-! ## The statements -/

/-- Settles O8: the fetch gives the word, the word the instruction. -/
theorem stepRunsDecodedInstruction : Obligations.StepRunsDecodedInstruction :=
  fun _ _ run pc odd decode => step_of_decode_ok run (State.fetch16_of_le pc odd) decode

/-- Settles O9: the fetch's two faults, and the decoder's refusal of an unassigned word. -/
theorem stepTakesFetchAndDecodeFaults : Obligations.StepTakesFetchAndDecodeFaults := by
  refine fun s run => ⟨fun pc => ?_, fun fault odd => ?_, fun pc odd unassigned => ?_⟩
  · exact step_of_fetch_fault run (State.fetch16_of_gt pc)
  · exact step_of_fetch_fault run (State.fetch16_of_odd fault odd)
  · exact step_of_decode_error run (State.fetch16_of_le pc odd) ((refusesExactlyUnassignedWords _).1 unassigned)

/-- Settles O10: the refusal is the whole step, and a refused step request keeps the state. -/
theorem haltedStepIsRefused : Obligations.HaltedStepIsRefused := by
  intro s hr
  have refused := step_of_halted hr
  exact ⟨refused, by rw [specStep, refused], by rw [State.after, State.afterStep, refused]⟩

/-- Settles O11: the three faulting cases of a step are the fetch's, the decoder's and the instruction's own. -/
theorem faultsArePrecise : Obligations.FaultsArePrecise := by
  intro s t run h halted
  rcases step_cases s with ⟨hr, -⟩ | ⟨-, fetch, he⟩ | ⟨-, -, op, fetch, ⟨e, -, he⟩ | ⟨i, decode, he⟩⟩
  · rw [run] at hr; cases hr
  · rw [he] at h; cases h
    exact ⟨.outOfBounds, .inl ⟨fetch, rfl, rfl⟩⟩
  · rw [he] at h; cases h
    exact ⟨.unknownOpcode, .inr ⟨op, fetch, rfl⟩⟩
  · obtain ⟨kind, ht⟩ := exec_halts run decode (he ▸ h) halted
    exact ⟨kind, .inr ⟨op, fetch, ht⟩⟩

/-- The outcome of a step that leaves the Halted state of a fault is that fault (R11). -/
theorem specStep_of_halts {s : State} {kind : FaultKind} {op : Option Word} (h : step s = .next (halts s kind op)) :
    specStep s = .fault kind (halts s kind op) := by
  rw [specStep, h]; rfl

theorem specStep_of_running {s t : State} (h : step s = .next t) (ht : t.run = .running) : specStep s = .next t := by
  simp only [specStep, h, ht]

/-- Settles O12: each case of a step has its outcome of R11; `exec_ends` gives those of the instruction. -/
theorem stepHasSpecOutcome : Obligations.StepHasSpecOutcome := by
  intro s
  rcases step_cases s with ⟨run, -⟩ | ⟨run, -, he⟩ | ⟨run, -, op, fetch, ⟨e, -, he⟩ | ⟨i, decode, he⟩⟩
  · exact .inl ⟨run, (haltedStepIsRefused s run).2.1⟩
  · exact .inr ⟨run, .inr (.inl ⟨_, _, specStep_of_halts he⟩)⟩
  · exact .inr ⟨run, .inr (.inl ⟨_, _, specStep_of_halts he⟩)⟩
  · refine .inr ⟨run, ?_⟩
    rcases exec_ends i s with ⟨refuse, aliased, hx⟩ | ⟨k, hx⟩ | ⟨t, hx, ht, -⟩
    · exact .inr (.inr ⟨by rw [specStep, he, hx], refuse, op, i, fetch, decode, aliased⟩)
    · exact .inr (.inl ⟨_, _, specStep_of_halts (he.trans hx)⟩)
    · exact .inl ⟨t, ht.trans run, specStep_of_running (he.trans hx) (ht.trans run)⟩

theorem exec_ne_memoryPort (i : Instr) (s : State) : exec i s ≠ .fault .memoryPort := by
  rcases exec_ends i s with ⟨-, -, he⟩ | ⟨k, he⟩ | ⟨t, he, -⟩ <;> rw [he] <;> exact nofun

/-- Settles O13: no way in which an instruction or a step ends is that fault. -/
theorem memoryPortNeverSeesBadAddress : Obligations.MemoryPortNeverSeesBadAddress := by
  refine ⟨exec_ne_memoryPort, fun s => ?_⟩
  rcases step_cases s with ⟨-, he⟩ | ⟨-, -, he⟩ | ⟨-, -, op, -, ⟨e, -, he⟩ | ⟨i, -, he⟩⟩
  case inr.inr.inr => rw [he]; exact exec_ne_memoryPort i s
  all_goals rw [he]; exact nofun

/-- Settles O28: `exec_alias` refuses the cases, and `exec_ends` has no other refusal. -/
theorem refusesExactlyAliasCases : Obligations.RefusesExactlyAliasCases := by
  refine fun i s => ⟨fun ⟨refuse, aliased⟩ => exec_alias refuse aliased, fun r h => ?_⟩
  rcases exec_ends i s with ⟨refuse, aliased, -⟩ | ⟨k, he⟩ | ⟨t, he, -⟩
  · exact ⟨refuse, aliased⟩
  · rw [he] at h; cases h
  · rw [he] at h; cases h

end Sys2Proof.Machine
end

section
/-! PROOFS. What an instruction leaves unchanged and which pc path it takes (spec/10_state.md R22, R24, R28, R29, R32;
20_memory.md R54): one frame for every instruction, read off the states of `Completes`. -/

namespace Sys2Proof.Machine

/-! ## The frame of every instruction -/

/-- The fields that an instruction leaves, each but for the instructions that write it. Where an instruction writes
another field, a field's default proof is that the updates do not touch it. -/
structure InstrFrame (i : Instr) (s t : State) : Prop where
  mem   : (∀ x, i ≠ .ldB x ∧ i ≠ .stRegs x) → t.mem = s.mem := by exact fun _ => rfl
  fb    : (i ≠ .cls ∧ ∀ x y n, i ≠ .drw x y n) → t.fb = s.fb := by exact fun _ => rfl
  index : ((∀ nnn, i ≠ .ldI nnn) ∧ ∀ x, i ≠ .addI x ∧ i ≠ .ldF x) → t.i = s.i := by exact fun _ => rfl
  stack : ((∀ nnn, i ≠ .call nnn) ∧ i ≠ .ret) → t.depth = s.depth ∧ t.stack = s.stack := by exact fun _ => ⟨rfl, rfl⟩
  dt    : (∀ x, i ≠ .ldDT x) → t.dt = s.dt := by exact fun _ => rfl
  st    : (∀ x, i ≠ .ldST x) → t.st = s.st := by exact fun _ => rfl
  ports : SamePorts s t := by exact ⟨rfl, rfl, rfl⟩

/-- A change of general registers, pc and draw counter alone keeps the frame of any instruction. -/
theorem InstrFrame.of_regs_pc {i : Instr} {s t : State}
    (h : t = { s with v := t.v, pc := t.pc, draws := t.draws }) : InstrFrame i s t := by
  rw [h]; exact {}

theorem InstrFrame.raise (i : Instr) (s : State) (k : FaultKind) (op : Option Word) : InstrFrame i s (s.raise k op) :=
  {}

theorem InstrFrame.skipIf (i : Instr) (s : State) (c : Bool) : InstrFrame i s (s.skipIf c) :=
  .of_regs_pc (by rw [State.skipIf_eq]; rfl)

theorem InstrFrame.keySkip (i : Instr) (s : State) (k : Byte) (c : Bool) :
    InstrFrame i s ((s.afterKeyHeld k).skipIf c) := by
  refine .of_regs_pc ?_
  rw [State.skipIf_eq]
  rcases s.afterKeyHeld_eq k with h | h <;> (rw [h]; rfl)

theorem InstrFrame.setRegs_goNext (i : Instr) (s : State) (k : Nat) (bs : List Byte) :
    InstrFrame i s (s.setRegs k bs).goNext :=
  .of_regs_pc (by rw [State.setRegs_frame]; rfl)

/-- An instruction that completes keeps its frame. -/
theorem Completes.frame {i : Instr} {s t : State} (h : Completes i s t) : InstrFrame i s t := by
  cases i
  case seByte | seReg | sneByte | sneReg => rw [show t = _ from h]; exact .skipIf ..
  case skp | sknp => rw [show t = _ from h]; exact .keySkip ..
  case ldRegs => obtain ⟨bs, -, rfl⟩ := h; exact .setRegs_goNext ..
  case ldVxK => obtain ⟨-, rfl⟩ | ⟨p, -, rfl⟩ := h <;> exact .of_regs_pc rfl
  case cls => rw [show t = _ from h]; exact { fb := fun hw => absurd rfl hw.1 }
  case drw x y n => obtain ⟨rows, -, rfl⟩ := h; exact { fb := fun hw => absurd rfl (hw.2 x y n) }
  case ret => obtain ⟨hd, rfl⟩ := h; exact { stack := fun hw => absurd rfl hw.2 }
  case call nnn => obtain ⟨hd, rfl⟩ := h; exact { stack := fun hw => absurd rfl (hw.1 nnn) }
  case ldI nnn => rw [show t = _ from h]; exact { index := fun hw => absurd rfl (hw.1 nnn) }
  case addI x => obtain ⟨w, -, rfl⟩ := h; exact { index := fun hw => absurd rfl (hw.2 x).1 }
  case ldF x => obtain ⟨-, rfl⟩ := h; exact { index := fun hw => absurd rfl (hw.2 x).2 }
  case ldDT x => rw [show t = _ from h]; exact { dt := fun hw => absurd rfl (hw x) }
  case ldST x => rw [show t = _ from h]; exact { st := fun hw => absurd rfl (hw x) }
  case ldB x => obtain ⟨-, rfl⟩ := h; exact { mem := fun hw => absurd rfl (hw x).1 }
  case stRegs x => obtain ⟨-, rfl⟩ := h; exact { mem := fun hw => absurd rfl (hw x).2 }
  -- the instructions that write a general register, and the two jumps that read no stack
  all_goals rw [show t = _ from h]; exact .of_regs_pc rfl

/-- A fault of its own keeps it too. -/
theorem exec_frame {i : Instr} {s t : State} (h : exec i s = .next t) : InstrFrame i s t := by
  rcases exec_next h with ⟨k, op, rfl⟩ | h
  · exact .raise ..
  · exact h.frame

/-! ## The general registers that an instruction writes (R22) -/

theorem reg_setReg_of_ne {s : State} {x r : RegIdx} (b : Byte) (h : (r == x) = false) :
    (s.setReg x b).reg r = s.reg r := by
  rw [State.reg_setReg, if_neg (beq_eq_false_iff_ne.mp h)]

theorem reg_setFlagThenReg_of_ne {s : State} {x r : RegIdx} (flag b : Byte) (h : (r == vf || r == x) = false) :
    (s.setFlagThenReg flag x b).reg r = s.reg r := by
  obtain ⟨hf, hx⟩ := Bool.or_eq_false_iff.mp h
  exact (reg_setReg_of_ne b hx).trans (reg_setReg_of_ne flag hf)

theorem reg_skipIf (s : State) (c : Bool) (r : RegIdx) : (s.skipIf c).reg r = s.reg r := by
  rw [State.skipIf_eq, State.reg_jump]

theorem reg_keySkip (s : State) (k : Byte) (c : Bool) (r : RegIdx) :
    ((s.afterKeyHeld k).skipIf c).reg r = s.reg r := by
  rw [reg_skipIf]
  rcases s.afterKeyHeld_eq k with h | h <;> simp [h]

theorem Completes.reg {i : Instr} {s t : State} {r : RegIdx} (h : Completes i s t) (hr : writesReg i r = false) :
    t.reg r = s.reg r := by
  cases i
  case ldByte | ldReg | addByte | orReg | andReg | xorReg | ldVxDT =>
    rw [show t = _ from h]; exact reg_setReg_of_ne _ hr
  case rnd => rw [show t = _ from h]; exact reg_setReg_of_ne (s := s.drew) _ hr
  case ldVxK =>
    obtain ⟨-, rfl⟩ | ⟨p, -, rfl⟩ := h
    · rfl
    · exact reg_setReg_of_ne _ hr
  case addReg | sub | subn | shr | shl => rw [show t = _ from h]; exact reg_setFlagThenReg_of_ne _ _ hr
  case drw => obtain ⟨rows, -, rfl⟩ := h; exact reg_setReg_of_ne (s := s.setFB _) _ hr
  case ldRegs x =>
    obtain ⟨bs, hlen, rfl⟩ := h
    have outside : ¬ r.toNat ≤ x.toNat := of_decide_eq_false hr
    rw [State.reg_goNext, State.reg_setRegs s 0 bs (by omega), dif_neg (by omega)]
  case seByte | seReg | sneByte | sneReg => rw [show t = _ from h]; exact reg_skipIf ..
  case skp | sknp => rw [show t = _ from h]; exact reg_keySkip ..
  case ret | call | ldF | ldB | stRegs => obtain ⟨-, rfl⟩ := h; rfl
  case addI => obtain ⟨w, -, rfl⟩ := h; rfl
  all_goals rw [show t = _ from h]; rfl

/-! ## The pc path (R24) -/

/-- R24's paths for an instruction that completes. -/
def TakesPcPath (i : Instr) (s t : State) : Prop :=
  (∀ w, explicitTarget i s = some w → t.pc = w) ∧
  (explicitTarget i s = none →
    ((∃ x, i = .ldVxK x) → s.pending = none → t.pc = s.pc) ∧
    (¬ ((∃ x, i = .ldVxK x) ∧ s.pending = none) →
      (canSkip i = true → (skipHolds i s → t.pc = s.pc + 4#16) ∧ (¬ skipHolds i s → t.pc = s.pc + 2#16)) ∧
      (canSkip i = false → t.pc = s.pc + 2#16)))

theorem TakesPcPath.explicit {i : Instr} {s t : State} (h : explicitTarget i s = some t.pc) : TakesPcPath i s t :=
  ⟨fun _ hw => Option.some.inj (h.symm.trans hw), fun hn => absurd (h.symm.trans hn) nofun⟩

theorem TakesPcPath.next {i : Instr} {s t : State} (he : explicitTarget i s = none) (hk : ∀ x, i ≠ .ldVxK x)
    (hs : canSkip i = false) (h : t.pc = s.pc + 2#16) : TakesPcPath i s t :=
  ⟨fun _ hw => absurd (he.symm.trans hw) nofun, fun _ => ⟨fun ⟨x, hx⟩ => absurd hx (hk x),
    fun _ => ⟨fun hs' => absurd (hs.symm.trans hs') Bool.false_ne_true, fun _ => h⟩⟩⟩

theorem TakesPcPath.skip {i : Instr} {s t : State} {c : Bool} (he : explicitTarget i s = none)
    (hk : ∀ x, i ≠ .ldVxK x) (hs : canSkip i = true) (hc : skipHolds i s ↔ c = true)
    (h : t.pc = s.pc + if c then 4#16 else 2#16) : TakesPcPath i s t := by
  refine ⟨fun _ hw => absurd (he.symm.trans hw) nofun, fun _ => ⟨fun ⟨x, hx⟩ => absurd hx (hk x), fun _ => ⟨fun _ =>
    ⟨fun holds => ?_, fun fails => ?_⟩, fun hs' => absurd (hs.symm.trans hs') (Bool.false_ne_true ∘ Eq.symm)⟩⟩⟩
  · rw [h, if_pos (hc.mp holds)]
  · rw [h, if_neg (fails ∘ hc.mpr)]

theorem pc_skipIf (s : State) (c : Bool) : (s.skipIf c).pc = s.pc + if c then 4#16 else 2#16 := by
  rw [State.skipIf_eq, State.jump_pc]

theorem pc_keySkip (s : State) (k : Byte) (c : Bool) :
    ((s.afterKeyHeld k).skipIf c).pc = s.pc + if c then 4#16 else 2#16 := by
  rw [pc_skipIf]
  rcases s.afterKeyHeld_eq k with h | h <;> simp [h]

theorem offsetTarget_eq (v0 : Byte) (nnn : Addr12) : offsetTarget v0 nnn = BitVec.ofNat 16 (v0.toNat + nnn.toNat) := by
  apply BitVec.eq_of_toNat_eq
  simp [offsetTarget]

/-- An instruction that completes takes one of R24's paths. -/
theorem Completes.takesPcPath {i : Instr} {s t : State} (h : Completes i s t) : TakesPcPath i s t := by
  cases i
  case jp => rw [show t = _ from h]; exact .explicit rfl
  case jpV0 => rw [show t = _ from h]; exact .explicit (congrArg some (offsetTarget_eq ..).symm)
  case call | ret => obtain ⟨-, rfl⟩ := h; exact .explicit rfl
  case seByte | seReg => rw [show t = _ from h]; exact .skip rfl nofun rfl beq_iff_eq.symm (pc_skipIf ..)
  case sneByte | sneReg => rw [show t = _ from h]; exact .skip rfl nofun rfl bne_iff_ne.symm (pc_skipIf ..)
  case skp => rw [show t = _ from h]; exact .skip rfl nofun rfl Iff.rfl (pc_keySkip ..)
  case sknp => rw [show t = _ from h]; exact .skip rfl nofun rfl (iff_of_eq (Bool.not_eq_true' _)).symm (pc_keySkip ..)
  case ldVxK =>
    obtain ⟨hp, rfl⟩ | ⟨p, hp, rfl⟩ := h
    · exact ⟨nofun, fun _ => ⟨fun _ _ => rfl, fun hn => absurd ⟨⟨_, rfl⟩, hp⟩ hn⟩⟩
    · exact ⟨nofun, fun _ => ⟨fun _ hn => absurd (hp.symm.trans hn) nofun, fun _ => ⟨nofun, fun _ => rfl⟩⟩⟩
  case ldRegs =>
    obtain ⟨bs, -, rfl⟩ := h
    exact .next rfl nofun rfl (by rw [State.setRegs_frame]; rfl)
  case drw => obtain ⟨rows, -, rfl⟩ := h; exact .next rfl nofun rfl rfl
  case addI => obtain ⟨w, -, rfl⟩ := h; exact .next rfl nofun rfl rfl
  case ldF | ldB | stRegs => obtain ⟨-, rfl⟩ := h; exact .next rfl nofun rfl rfl
  all_goals rw [show t = _ from h]; exact .next rfl nofun rfl rfl

/-! ## The statements -/

/-- Settles O48: a fault leaves every register, and `Completes.reg` has the rest. -/
theorem writesOnlyListedRegisters : Obligations.WritesOnlyListedRegisters := by
  intro i s t h r hr
  rcases exec_next h with ⟨k, op, rfl⟩ | h
  · rfl
  · exact h.reg hr

/-- Settles O51: three fields of the frame. -/
theorem memoryAndPixelWriters : Obligations.MemoryAndPixelWriters := by
  intro i s t h
  have frame := exec_frame h
  exact ⟨fun hw a => by rw [frame.mem hw], fun hw px py => by rw [frame.fb hw], frame.ports⟩

/-- Settles O52: the other four. -/
theorem indexStackTimerWriters : Obligations.IndexStackTimerWriters := by
  intro i s t h
  have frame := exec_frame h
  refine ⟨frame.index, fun hw => ?_, frame.dt, frame.st⟩
  obtain ⟨depth, stack⟩ := frame.stack hw
  exact ⟨depth, fun k => by rw [stack]⟩

/-- Settles O53: a refused step leaves the state, a fault leaves pc, and one that completes takes its path. -/
theorem pcPaths : Obligations.PcPaths := by
  refine ⟨fun s halted => (haltedStepIsRefused s halted).2.2, fun s t run h halted => ?_, fun i s t run h running => ?_⟩
  · obtain ⟨k, ⟨-, -, rfl⟩ | ⟨op, -, rfl⟩⟩ := faultsArePrecise s t run h halted <;> rfl
  · rcases exec_next h with ⟨k, op, rfl⟩ | h
    · cases running
    · exact h.takesPcPath

end Sys2Proof.Machine
end

section
/-! PROOFS. The invariant (spec/10_state.md R26, R33; 42_index_memory.md R192; 70_reset_and_hazards.md R320): one step
keeps it, so does every action of the host, and so does a run. -/

namespace Sys2Proof.Machine

/-! ## The bounds of R26 -/

/-- Every explicit target is a 12-bit address, a stack entry, or the sum of a byte and a 12-bit address. -/
theorem explicitTarget_le {i : Instr} {s : State} {w : Word} (hs : ∀ k : Fin 16, s.stack[k].toNat ≤ 0xFFF)
    (h : explicitTarget i s = some w) : w.toNat ≤ 0x10FE := by
  cases i <;> simp only [explicitTarget, Option.some.injEq, reduceCtorEq] at h
  case jp nnn | call nnn => rw [← h, toNat_zeroExtend_addr]; omega
  case jpV0 nnn => rw [← h, BitVec.toNat_ofNat]; omega
  case ret =>
    have entry := hs ⟨s.depth.val - 1, by omega⟩
    rw [← h]; exact Nat.le_trans entry (by decide)

/-- From a pc that the fetch accepts every path of R24 ends within R26's bound. -/
theorem TakesPcPath.pc_le {i : Instr} {s t : State} (h : TakesPcPath i s t) (hpc : s.pc.toNat ≤ 0xFFD)
    (hs : ∀ k : Fin 16, s.stack[k].toNat ≤ 0xFFF) : t.pc.toNat ≤ 0x10FE := by
  obtain ⟨explicit, other⟩ := h
  cases target : explicitTarget i s with
  | some w => rw [explicit w target]; exact explicitTarget_le hs target
  | none =>
    obtain ⟨waits, advances⟩ := other target
    have advance {k : Word} (hk : k.toNat ≤ 4) (ht : t.pc = s.pc + k) : t.pc.toNat ≤ 0x10FE := by
      rw [ht, BitVec.toNat_add]; omega
    by_cases wait : (∃ x, i = .ldVxK x) ∧ s.pending = none
    · rw [waits wait.1 wait.2]; omega
    · obtain ⟨skips, nexts⟩ := advances wait
      cases hc : canSkip i
      · exact advance (by decide) (nexts hc)
      · by_cases holds : skipHolds i s
        · exact advance (by decide) ((skips hc).1 holds)
        · exact advance (by decide) ((skips hc).2 holds)

/-- Only CALL writes an entry, and it pushes the address of the next instruction. -/
theorem Completes.stack_le {i : Instr} {s t : State} (h : Completes i s t) (hpc : s.pc.toNat ≤ 0xFFD)
    (hs : ∀ k : Fin 16, s.stack[k].toNat ≤ 0xFFF) (k : Fin 16) : t.stack[k].toNat ≤ 0xFFF := by
  by_cases writes : (∀ nnn, i ≠ .call nnn) ∧ i ≠ .ret
  · rw [(h.frame.stack writes).2]; exact hs k
  · cases i
    case ret => obtain ⟨-, rfl⟩ := h; exact hs k
    case call nnn =>
      obtain ⟨hd, rfl⟩ := h
      have pushed : (s.pc + 2#16).toNat ≤ 0xFFF := by
        rw [BitVec.toNat_add, BitVec.toNat_ofNat]; omega
      simp only [State.jump_stack, Fin.getElem_fin, Vector.getElem_set]
      split
      · exact pushed
      · exact hs k
    all_goals exact absurd ⟨nofun, nofun⟩ writes

/-! ## Canonical memory -/

/-- A block written at I whose last byte the bounds check let through keeps memory canonical. -/
theorem wf_store {s : State} {last : Nat} {bs : List Byte} (hm : s.mem.wf = true) (hb : s.beyond last = false)
    (hl : bs.length = last + 1) : (s.mem.writeAll (s.ea 0) bs).wf = true := by
  have inside := State.not_beyond hb
  refine Memory.wf_writeAll hm _ bs ?_
  simp only [State.ea] at inside ⊢; omega

theorem Completes.wf_mem {i : Instr} {s t : State} (h : Completes i s t) (hm : s.mem.wf = true) : t.mem.wf = true := by
  by_cases writes : ∀ x, i ≠ .ldB x ∧ i ≠ .stRegs x
  · rw [h.frame.mem writes]; exact hm
  · cases i
    case ldB x => obtain ⟨hb, rfl⟩ := h; exact wf_store hm hb rfl
    case stRegs x => obtain ⟨hb, rfl⟩ := h; exact wf_store hm hb (s.regBlock_length x)
    all_goals exact absurd (fun _ => ⟨nofun, nofun⟩) writes

/-! ## A step keeps the invariant -/

/-- Taking a fault keeps it: run and record are written together. -/
theorem State.Inv.raise {s : State} (h : s.Inv) (k : FaultKind) (op : Option Word) : (s.raise k op).Inv :=
  ⟨h.memory, ⟨fun _ => rfl, fun _ => rfl⟩, h.pc, h.stack⟩

/-- A next state of a step is a fault's, or the one in which an instruction completes that the fetch gave. -/
theorem step_next {s t : State} (h : step s = .next t) :
    (∃ k op, t = s.raise k op) ∨ (s.pc.toNat ≤ 0xFFD ∧ ∃ i, exec i s = .next t ∧ Completes i s t) := by
  rcases step_cases s with ⟨-, he⟩ | ⟨-, -, he⟩ | ⟨-, hpc, op, -, ⟨e, -, he⟩ | ⟨i, -, he⟩⟩ <;> rw [he] at h
  · cases h
  · cases h; exact .inl ⟨_, _, rfl⟩
  · cases h; exact .inl ⟨_, _, rfl⟩
  · exact (exec_next h).imp_right fun hc => ⟨hpc, i, h, hc⟩

/-- Settles O55: a fault keeps the invariant, and so does an instruction that the fetch gave. -/
theorem stepKeepsInvariant : Obligations.StepKeepsInvariant := by
  intro s t inv h
  rcases step_next h with ⟨k, op, rfl⟩ | ⟨hpc, i, he, hc⟩
  · exact inv.raise k op
  · refine ⟨hc.wf_mem inv.memory, ?_, hc.takesPcPath.pc_le hpc inv.stack, hc.stack_le hpc inv.stack⟩
    rcases exec_ends i s with ⟨-, -, hx⟩ | ⟨k, hx⟩ | ⟨u, hx, run, fault, -⟩ <;> rw [he] at hx <;> cases hx
    · exact (inv.raise k _).halted
    · rw [run, fault]; exact inv.halted

/-! ## Actions and runs (60_exceptions.md R293, R303) -/

/-- A reset meets the invariant, whatever the state before. -/
theorem State.Inv.hostReset (s : State) (image : List Byte) (l : LaunchInputs) : (s.hostReset image l).Inv where
  memory := Memory.wf_ofBytes image
  halted := ⟨nofun, nofun⟩
  pc := (by decide : entryPoint.toNat ≤ 0x10FE)
  stack k := by rw [(s.hostReset_resetState image l).stack k]; decide

/-- A step request that has a state after left the state as it was, or stepped. -/
theorem State.afterStep_cases {s t : State} (h : s.afterStep = some t) : t = s ∨ step s = .next t := by
  unfold State.afterStep at h
  split at h <;> cases h
  · exact .inr ‹_›
  · exact .inl rfl

theorem State.Inv.after {s t : State} {a : Action} (h : s.Inv) (ha : s.after a = some t) : t.Inv := by
  cases a with
  | step =>
    rcases State.afterStep_cases ha with rfl | hs
    · exact h
    · exact stepKeepsInvariant s t h hs
  | tick | writeDT | writeST | keypad => cases ha; exact ⟨h.memory, h.halted, h.pc, h.stack⟩
  | reset image l =>
    have ha : s.resetWithImage image l = some t := ha
    rcases s.resetWithImage_spec image l with ⟨-, hr⟩ | ⟨-, hr⟩ <;> rw [hr] at ha <;> cases ha
    exact .hostReset s image l

/-- Settles O56: induction over the actions, each of which keeps the invariant. -/
theorem runsKeepInvariant : Obligations.RunsKeepInvariant := by
  intro as
  induction as with
  | nil => intro s t inv h; cases h; exact inv
  | cons a as ih =>
    intro s t inv h
    unfold State.afterAll at h
    split at h
    · exact ih _ t (inv.after ‹_›) h
    · cases h

/-! ## The index register under `mask12` and `fault` (R192) -/

/-- Where the policy is not `keep16`, ADD I writes an address of the memory. -/
theorem indexAfterAdd_le {p : IAddPolicy} {n : Nat} {w : Word} (hp : p ≠ .keep16) (h : indexAfterAdd p n = some w) :
    w.toNat ≤ 0xFFF := by
  cases p
  case keep16 => exact absurd rfl hp
  case mask12 => cases h; rw [BitVec.toNat_ofNat]; omega
  case fault =>
    simp only [indexAfterAdd] at h
    split at h <;> cases h
    rw [BitVec.toNat_ofNat]; omega

theorem Completes.index_le {i : Instr} {s t : State} (h : Completes i s t) (hp : s.params.iAdd ≠ .keep16)
    (hi : s.i.toNat ≤ 0xFFF) : t.i.toNat ≤ 0xFFF := by
  by_cases writes : (∀ nnn, i ≠ .ldI nnn) ∧ ∀ x, i ≠ .addI x ∧ i ≠ .ldF x
  · rw [h.frame.index writes]; exact hi
  · cases i
    case ldI nnn =>
      rw [show t = _ from h, State.goNext_i, State.setI_i, toNat_zeroExtend_addr]; omega
    case addI x => obtain ⟨w, hw, rfl⟩ := h; exact indexAfterAdd_le hp hw
    case ldF x =>
      obtain ⟨digit, rfl⟩ := h
      rw [State.goNext_i, State.setI_i, toNat_fontAddress]; omega
    all_goals exact absurd ⟨nofun, fun _ => ⟨nofun, nofun⟩⟩ writes

/-- Settles O57: a fault leaves I, an instruction writes it within the bound. -/
theorem stepKeepsIndexBounded : Obligations.StepKeepsIndexBounded := by
  intro s t bounded h
  rcases step_next h with ⟨k, op, rfl⟩ | ⟨-, i, -, hc⟩
  · exact bounded
  · intro hp
    obtain ⟨-, -, params⟩ := hc.frame.ports
    rw [params] at hp
    exact hc.index_le hp (bounded hp)

end Sys2Proof.Machine
end

section
/-! PROOFS. Control flow again (spec/40_control_flow.md R103, R108, R109; 70_reset_and_hazards.md R325): what the rules
of CALL and RET give for a call and its return, and for sixteen calls in a row. -/

namespace Sys2Proof.Machine

/-- The sum of a byte and a 12-bit address fits in a pc. -/
theorem toNat_offsetTarget (v0 : Byte) (nnn : Addr12) : (offsetTarget v0 nnn).toNat = v0.toNat + nnn.toNat := by
  rw [offsetTarget_eq, BitVec.toNat_ofNat, Nat.mod_eq_of_lt (by omega)]

/-- Settles O21: JP V0 is a jump to the sum. -/
theorem jumpWithOffset : Obligations.JumpWithOffset :=
  fun nnn s => ⟨_, rfl, toNat_offsetTarget (s.reg 0x0#4) nnn, .jump s _⟩

/-- Settles O18: the entry at the CALL's SP is the address it pushed, and RET takes the entry at SP. -/
theorem callThenReturn : Obligations.CallThenReturn := by
  intro nnn s h
  obtain ⟨t, call, -, sp, stack, -⟩ := (callPushesReturnAddress nnn s).2.1 h
  refine ⟨t, call, fun u hsp hstack => ?_⟩
  let top : Fin 16 := ⟨s.depth.val, s.depth_lt_iff.mpr h⟩
  have htop : (top.val : Int) = s.sp + 1 := by simp [top, State.sp]
  obtain ⟨w, ret, pc, sp', -⟩ := (returnPopsAddress u).2.1 top (by rw [hsp, sp, htop])
  refine ⟨w, ret, ?_, by rw [sp', hsp, sp]; omega⟩
  rw [pc, hstack top (by rw [sp, htop]), stack, if_pos htop]

/-- Calls that the stack has room for all complete, each one entry deeper. -/
theorem execAll_calls (targets : List Addr12) (s : State) (room : s.sp + targets.length ≤ 15) :
    ∃ t, execAll (targets.map Instr.call) s = some t ∧ t.sp = s.sp + targets.length ∧ t.run = s.run := by
  induction targets generalizing s with
  | nil => exact ⟨s, rfl, by simp, rfl⟩
  | cons nnn targets ih =>
    simp only [List.length_cons, Nat.cast_add, Nat.cast_one] at room ⊢
    obtain ⟨t, call, -, sp, -, -, -, -, run, -⟩ := (callPushesReturnAddress nnn s).2.1 (by omega)
    obtain ⟨u, calls, sp', run'⟩ := ih t (by omega)
    refine ⟨u, ?_, by omega, run'.trans run.1⟩
    rw [List.map_cons, execAll, call]; exact calls

/-- Settles O19: sixteen calls from SP = −1 leave SP = 15, where a CALL traps. -/
theorem sixteenCallsFillStack : Obligations.SixteenCallsFillStack := by
  intro targets s sixteen empty
  obtain ⟨t, calls, sp, run⟩ := execAll_calls targets s (by omega)
  have full : t.sp = 15 := by omega
  exact ⟨t, calls, full, run, fun nnn => (callPushesReturnAddress nnn t).2.2 full⟩

end Sys2Proof.Machine
end

section
/-! PROOFS. The latched forms of 41_alu.md R141, and RND (R153). -/

namespace Sys2Proof.Machine

/-! ## Under `latched` an aliased form runs (R141) -/

theorem not_refuse_of_latched {s : State} (h : s.params.vfAlias = .latched) (c : Bool) :
    ¬ (s.params.vfAlias = .refuse ∧ c = true) :=
  fun ⟨refuse, _⟩ => absurd (h.symm.trans refuse) nofun

/-- With x = F the result is written over the flag. -/
theorem exec_latched_vf {i : Instr} {s : State} {c : Bool} {flag b : Byte} (h : s.params.vfAlias = .latched)
    (he : exec i s = s.unlessAlias c (s.finishFlagReg flag vf b)) :
    ∃ t, exec i s = .next t ∧ t.reg vf = b ∧ (∀ r, r ≠ vf → t.reg r = s.reg r) ∧ t.pc = s.pc + 2#16 ∧
      OnlyRegsAndPc s t := by
  obtain ⟨t, next, regs, rest⟩ := exec_finishFlagReg he (not_refuse_of_latched h c)
  exact ⟨t, next, by rw [regs, if_pos rfl], fun r hr => by rw [regs, if_neg hr, if_neg hr], rest⟩

/-- A difference with y = F and x not F is one that R141's policy does not refuse. -/
theorem exec_difference_latched {i : Instr} {s : State} {c : Bool} {a b : Byte} {x : RegIdx}
    (h : s.params.vfAlias = .latched)
    (he : exec i s = s.unlessAlias c (s.finishFlagReg (notBorrowFlag a b) x (a - b))) (hx : x ≠ vf) :
    ∃ t, exec i s = .next t ∧ ((t.reg x).toNat : Int) = (a.toNat - b.toNat : Int) % 256 ∧
      t.reg vf = (if a.toNat ≥ b.toNat then 1 else 0) ∧
      (∀ r, r ≠ x → r ≠ vf → t.reg r = s.reg r) ∧ t.pc = s.pc + 2#16 ∧ OnlyRegsAndPc s t := by
  have runs := not_refuse_of_latched h
  refine exec_difference (c := false) (he.trans ?_) hx rfl
  rw [State.unlessAlias, State.unlessAlias, if_neg (runs c), if_neg (runs false)]

/-- Settles O27: with x = F the result stays, and with y = F alone the form is no different from others. -/
theorem aliasedFlagLatched : Obligations.AliasedFlagLatched := by
  intro x y s h
  refine ⟨?_, ?_, ?_, ?_, ?_, exec_difference_latched h rfl, exec_difference_latched h rfl⟩
  · obtain ⟨t, next, result, rest⟩ := exec_latched_vf (i := .addReg vf y) h rfl
    exact ⟨t, next, by rw [result, BitVec.toNat_add], rest⟩
  · obtain ⟨t, next, result, rest⟩ := exec_latched_vf (i := .sub vf y) h rfl
    exact ⟨t, next, by rw [result, toNat_sub_eq_emod], rest⟩
  · obtain ⟨t, next, result, rest⟩ := exec_latched_vf (i := .subn vf y) h rfl
    exact ⟨t, next, by rw [result, toNat_sub_eq_emod], rest⟩
  · obtain ⟨t, next, result, rest⟩ := exec_latched_vf (i := .shr vf) h rfl
    exact ⟨t, next, by rw [result, toNat_ushiftRight_one], rest⟩
  · obtain ⟨t, next, result, rest⟩ := exec_latched_vf (i := .shl vf) h rfl
    exact ⟨t, next, by rw [result, toNat_shiftLeft_one], rest⟩

/-! ## RND (R153, R154) -/

/-- A draw changes none of what the frames speak of. -/
theorem OnlyRegsAndPc.drew_goNext (s : State) : OnlyRegsAndPc s s.drew.goNext := OnlyRegsAndPc.goNext s

/-- Settles O29: RND advances the draw counter and writes the masked byte to Vx alone. -/
theorem randomUnderMask : Obligations.RandomUnderMask := by
  refine fun x kk s => ⟨rfl, _, rfl, fun k => ?_, fun r hr => ?_, rfl,
    (OnlyRegsAndPc.drew_goNext s).setReg_goNext x _, Nat.succ_ne_self _⟩
  · rw [State.reg_goNext, State.reg_setReg, if_pos rfl, BitVec.getLsbD_and]
  · rw [State.reg_goNext, State.reg_setReg, if_neg hr, State.reg_drew]

end Sys2Proof.Machine
end

section
/-! PROOFS. ADD I, the stores through I, and LD Vx,[I] (spec/42_index_memory.md R192, R194 to R196; 20_memory.md
R64). -/

namespace Sys2Proof.Machine

/-! ## ADD I,Vx (R192) -/

theorem exec_addI_of_some {x : RegIdx} {s : State} {w : Word}
    (h : indexAfterAdd s.params.iAdd (s.indexSum x) = some w) : exec (.addI x) s = .next (s.setI w).goNext := by
  simp only [exec, execAddI, h]

theorem exec_addI_of_none {x : RegIdx} {s : State} (h : indexAfterAdd s.params.iAdd (s.indexSum x) = none) :
    exec (.addI x) s = s.trap .outOfBounds (.addI x) := by
  simp only [exec, execAddI, h]

/-- Settles O31: the word that each policy writes, or the trap where it writes none. -/
theorem addToIndex : Obligations.AddToIndex := by
  refine fun x s => ⟨fun policy => ?_, fun policy => ?_, fun policy inside => ?_, fun policy beyond => ?_⟩
  · obtain ⟨t, next, index, rest⟩ := exec_setI (exec_addI_of_some (x := x) (by rw [policy]; rfl))
    exact ⟨t, next, by rw [index, BitVec.toNat_ofNat, State.indexSum], rest⟩
  · obtain ⟨t, next, index, rest⟩ := exec_setI (exec_addI_of_some (x := x) (by rw [policy]; rfl))
    exact ⟨t, next, by rw [index, BitVec.toNat_ofNat, State.indexSum]; omega, rest⟩
  · have sum : indexAfterAdd s.params.iAdd (s.indexSum x) = some (BitVec.ofNat 16 (s.indexSum x)) := by
      rw [policy]; exact if_neg (Nat.not_lt.mpr inside)
    obtain ⟨t, next, index, rest⟩ := exec_setI (exec_addI_of_some sum)
    exact ⟨t, next, by rw [index, BitVec.toNat_ofNat, State.indexSum]; omega, rest⟩
  · have none : indexAfterAdd s.params.iAdd (s.indexSum x) = none := by rw [policy]; exact if_pos beyond
    rw [exec_addI_of_none none, State.trap_eq_halts]

/-! ## Stores through I (R194, R195) -/

theorem OnlyMemAndPc.withMem_goNext (s : State) (m : Memory) : OnlyMemAndPc s ({ s with mem := m } : State).goNext :=
  have ⟨regs, index, stack, timers, run, _, rest⟩ := OnlyPc.jump s (s.pc + 2#16)
  ⟨regs, index, stack, timers, run, rest⟩

theorem State.beyond_iff (s : State) (k : Nat) : s.beyond k = true ↔ s.i.toNat + k > 0xFFF := decide_eq_true_iff

/-- A store inside the memory leaves byte k of the list at I + k, every other byte and all else as before. -/
theorem exec_store {i : Instr} {s : State} {last : Nat} {bs : List Byte} (he : exec i s = s.storeAtI i last bs)
    (hl : bs.length = last + 1) (hm : s.mem.wf = true) (inside : s.i.toNat + last ≤ 0xFFF) :
    ∃ t, exec i s = .next t ∧ (∀ k (hk : k < bs.length), t.mem.read (s.ea k) = bs[k]) ∧
      (∀ a, a < s.ea 0 ∨ s.ea last < a → t.mem.read a = s.mem.read a) ∧ t.pc = s.pc + 2#16 ∧ OnlyMemAndPc s t := by
  rcases s.storeAtI_spec i last bs hl with ⟨hb, -⟩ | ⟨-, hs⟩
  · rw [State.beyond_iff] at hb; omega
  · have fits : s.ea 0 + bs.length ≤ memorySize := by simp only [State.ea, memorySize]; omega
    refine ⟨_, he.trans hs, fun k hk => ?_, fun a ha => ?_, rfl, .withMem_goNext s _⟩
    · exact Memory.read_writeAll_inside hm (s.ea 0) bs fits k hk
    · refine Memory.read_writeAll_outside s.mem (s.ea 0) bs ?_
      simp only [State.ea] at ha ⊢; omega

/-- A store that would leave the memory takes its bounds fault. -/
theorem exec_store_beyond {i : Instr} {s : State} {last : Nat} {bs : List Byte} (he : exec i s = s.storeAtI i last bs)
    (hl : bs.length = last + 1) (beyond : s.i.toNat + last > 0xFFF) :
    exec i s = .next (halts s .outOfBounds (some (encode i))) := by
  rcases s.storeAtI_spec i last bs hl with ⟨-, hs⟩ | ⟨hb, -⟩
  · exact he.trans hs
  · rw [(s.beyond_iff last).mpr beyond] at hb; cases hb

/-- Settles O33: LD B is a store of the three digits. -/
theorem storeDecimalDigits : Obligations.StoreDecimalDigits := by
  refine fun x s => ⟨rfl, fun wf inside => ?_, exec_store_beyond (bs := bcdDigits (s.reg x)) rfl rfl⟩
  obtain ⟨t, next, bytes, rest⟩ := exec_store (i := .ldB x) (bs := bcdDigits (s.reg x)) rfl rfl wf inside
  have digit {n : Nat} (hn : n < 256) : (BitVec.ofNat 8 n).toNat = n := Nat.mod_eq_of_lt hn
  have three : (bcdDigits (s.reg x)).length = 3 := rfl
  refine ⟨t, next, ?_, ?_, ?_, rest⟩
  · rw [bytes 0 (by omega)]; exact digit (by omega)
  · rw [bytes 1 (by omega)]; exact digit (by omega)
  · rw [bytes 2 (by omega)]; exact digit (by omega)

/-- Settles O34: LD [I],Vx is a store of the register block. -/
theorem storeRegisterBlock : Obligations.StoreRegisterBlock := by
  refine fun x s => ⟨fun wf inside => ?_, exec_store_beyond rfl (s.regBlock_length x)⟩
  obtain ⟨t, next, bytes, rest⟩ := exec_store (i := .stRegs x) rfl (s.regBlock_length x) wf inside
  refine ⟨t, next, fun r hr => ?_, rest⟩
  rw [bytes r.toNat (by rw [State.regBlock_length]; omega), State.regBlock_get, BitVec.ofNat_toNat, BitVec.setWidth_eq]

/-- Settles O14: the fetch after the store reads the two bytes at I, where V0 and V1 now are. -/
theorem storeIsSeenByNextFetch : Obligations.StoreIsSeenByNextFetch := by
  intro s x wf run odd two index inside last
  obtain ⟨t, next, bytes, -, pc, -, -, -, -, -, -, -, -, params⟩ := (storeRegisterBlock x s).1 wf inside
  have hpc : t.pc = s.i := pc.trans index.symm
  have v0 : t.mem.read s.i.toNat = s.reg 0x0#4 := bytes 0x0#4 (Nat.zero_le _)
  have v1 : t.mem.read (s.i.toNat + 1) = s.reg 0x1#4 := bytes 0x1#4 two
  refine ⟨t, next, ?_⟩
  rw [State.fetch16_of_le (by rw [hpc]; exact last) (.inl (by rw [params]; exact odd)), hpc, v0, v1]

/-! ## LD Vx,[I] (R196) -/

theorem OnlyRegsAndPc.setRegs_goNext (s : State) (k : Nat) (bs : List Byte) :
    OnlyRegsAndPc s (s.setRegs k bs).goNext := by
  rw [State.setRegs_frame]; exact OnlyRegsAndPc.goNext s

/-- Settles O35: the block read from I on is loaded from V0 on, or the bounds check traps. -/
theorem loadRegisterBlock : Obligations.LoadRegisterBlock := by
  refine fun x s => ⟨fun inside => ?_, fun beyond => if_pos ((s.beyond_iff x.toNat).mpr beyond)⟩
  have check : ¬ s.beyond x.toNat = true := by rw [State.beyond_iff]; omega
  have fits : s.ea 0 + (x.toNat + 1) ≤ memorySize := by simp only [State.ea, memorySize]; omega
  obtain ⟨bs, read, len, bytes⟩ := s.readBlock_spec (s.ea 0) (x.toNat + 1) fits
  have next : exec (.ldRegs x) s = .next (s.setRegs 0 bs).goNext := by
    simp only [exec, execLdRegs, if_neg check, read]
  refine ⟨_, next, fun r => ?_, by rw [State.setRegs_frame]; rfl, .setRegs_goNext s 0 bs⟩
  rw [State.reg_goNext, State.reg_setRegs s 0 bs (by omega)]
  by_cases hr : r.toNat ≤ x.toNat
  · rw [if_pos hr, dif_pos (by omega)]; exact bytes r.toNat (by omega)
  · rw [if_neg hr, dif_neg (by omega)]

end Sys2Proof.Machine
end

section
/-! PROOFS. DRW (spec/43_display.md R221 to R225): the sprite's pixels as `SpriteHits` names them, and what one draw and
a second one leave. -/

namespace Sys2Proof.Machine

/-! ## The sprite's bits as pixels (R221, R223) -/

/-- A bit of one of the rows read at I lands on the pixel exactly when `SpriteHits` says so. -/
theorem spriteHits_iff {s : State} {n : Nibble} {rows : List Byte} (len : rows.length = n.toNat)
    (bytes : ∀ k (hk : k < rows.length), rows[k] = s.mem.read (s.ea 0 + k)) (xo yo : Byte) (px : Fin 64)
    (py : Fin 32) :
    SpriteHits s xo yo n px py ↔ ∃ k, ∃ hk : k < rows.length, ∃ c ∈ spriteColumns,
      spriteBit rows[k] c = true ∧ px = spriteX xo c ∧ py = spriteY yo (0 + k) := by
  have column (c : Nat) : c ∈ spriteColumns ↔ c < 8 := by simp [spriteColumns]; omega
  constructor
  · rintro ⟨r, c, hr, hc, bit, hx, hy⟩
    refine ⟨r, len ▸ hr, c, (column c).mpr hc, ?_, Fin.ext hx, Fin.ext (by rw [Nat.zero_add]; exact hy)⟩
    rw [bytes]; exact bit
  · rintro ⟨r, hr, c, hc, bit, rfl, rfl⟩
    rw [bytes] at bit
    exact ⟨r, c, len ▸ hr, (column c).mp hc, bit, rfl, by rw [Nat.zero_add]; rfl⟩

theorem xor_decide_iff (b : Bool) (p : Prop) [Decidable p] : (b ^^ decide p) = true ↔ ¬ (b = true ↔ p) := by
  by_cases p <;> simp [*]

/-- The pixels after a whole sprite, and its collision bit. -/
theorem drawSprite_spec {s : State} {n : Nibble} {rows : List Byte} (len : rows.length = n.toNat)
    (bytes : ∀ k (hk : k < rows.length), rows[k] = s.mem.read (s.ea 0 + k)) (xo yo : Byte) (f : FrameBuffer) :
    (∀ px py, (drawSprite xo yo rows f).1.pixel px py = true ↔
      ¬ (f.pixel px py = true ↔ SpriteHits s xo yo n px py)) ∧
    ((drawSprite xo yo rows f).2 = true ↔ ∃ px py, SpriteHits s xo yo n px py ∧ f.pixel px py = true) := by
  obtain ⟨pixels, collision⟩ := drawRows_spec xo yo rows 0 (f, false) (by omega)
  constructor
  · intro px py
    rw [drawSprite, pixels, xor_decide_iff, spriteHits_iff len bytes]
  · rw [drawSprite, collision]
    simp only [spriteHits_iff len bytes]
    constructor
    · rintro (h | ⟨k, hk, c, hc, bit, on⟩)
      · cases h
      · exact ⟨_, _, ⟨k, hk, c, hc, bit, rfl, rfl⟩, on⟩
    · rintro ⟨px, py, ⟨k, hk, c, hc, bit, rfl, rfl⟩, on⟩
      exact .inr ⟨k, hk, c, hc, bit, on⟩

/-! ## One draw (R221, R222, R224) -/

theorem exec_drw {x y : RegIdx} {n : Nibble} {s : State}
    (runs : ¬ (s.params.vfAlias = .refuse ∧ aliasCase (.drw x y n) = true)) :
    exec (.drw x y n) s = s.drawChecked x y n := if_neg runs

/-- Settles O38: the policy out of the way, the bounds check traps. -/
theorem drawOutOfBoundsFaults : Obligations.DrawOutOfBoundsFaults := by
  intro x y n s runs rows beyond
  rw [exec_drw runs]
  rcases s.drawChecked_spec x y n with ⟨-, -, he⟩ | ⟨inside, -⟩
  · exact he
  · omega

/-- Settles O37: the drawn state has the sprite's pixels toggled, the collision in VF, and pc advanced. -/
theorem drawTogglesSpritePixels : Obligations.DrawTogglesSpritePixels := by
  intro x y n s runs inside
  rcases s.drawChecked_spec x y n with ⟨rows, beyond, -⟩ | ⟨-, rows, len, bytes, he⟩
  · omega
  · obtain ⟨pixels, collision⟩ := drawSprite_spec len bytes (s.reg x) (s.reg y) s.fb
    have flag : (s.drawn x y rows).reg vf = flagByte (drawSprite (s.reg x) (s.reg y) rows s.fb).2 := by
      rw [State.drawn_eq, State.reg_jump, State.reg_setReg, if_pos rfl]
    refine ⟨s.drawn x y rows, (exec_drw runs).trans he, pixels, fun hit => ?_, fun miss => ?_, fun r hr => ?_, rfl,
      rfl, ⟨rfl, fun _ => rfl⟩, ⟨rfl, rfl⟩, ⟨rfl, rfl⟩, fun _ => rfl, rfl, rfl, rfl⟩
    · rw [flag, collision.mpr hit]; rfl
    · rw [flag, Bool.eq_false_iff.mpr (mt collision.mp miss)]; rfl
    · rw [State.drawn_eq, State.reg_jump, State.reg_setReg, if_neg hr, State.reg_setFB]

/-! ## A second draw (R225) -/

/-- A toggle by the same condition undoes the first. -/
theorem toggle_toggle (a b : Prop) : ¬ (¬ (a ↔ b) ↔ b) ↔ a := by
  by_cases b <;> simp [*]

/-- The sprite depends on I, the bytes from there on, and the coordinates. -/
theorem spriteHits_congr {s s' : State} (index : s'.i = s.i) (mem : SameMem s s') (xo yo : Byte) (n : Nibble)
    (px : Fin 64) (py : Fin 32) : SpriteHits s' xo yo n px py ↔ SpriteHits s xo yo n px py := by
  unfold SpriteHits; rw [index]; simp only [mem _]

/-- A sprite with a set bit lands somewhere. -/
theorem exists_spriteHits {s : State} {n : Nibble} (xo yo : Byte)
    (h : ∃ r c : Nat, r < n.toNat ∧ c < 8 ∧ (s.mem.read (s.i.toNat + r)).getLsbD (7 - c) = true) :
    ∃ px py, SpriteHits s xo yo n px py := by
  obtain ⟨r, c, hr, hc, bit⟩ := h
  exact ⟨spriteX xo c, spriteY yo r, r, c, hr, hc, bit, rfl, rfl⟩

/-- Settles O39: a pixel toggled twice is as before, and the second draw meets lit the pixels that the first one lit. -/
theorem drawTwiceRestoresDisplay : Obligations.DrawTwiceRestoresDisplay := by
  intro x y x' y' n s s' runs runs' inside index vx vy mem
  obtain ⟨t, draw, pixels, -⟩ := drawTogglesSpritePixels x y n s runs inside
  refine ⟨t, draw, fun same => ?_⟩
  obtain ⟨u, draw', pixels', hit', miss', -⟩ := drawTogglesSpritePixels x' y' n s' runs' (index ▸ inside)
  simp only [vx, vy, spriteHits_congr index mem, same _ _, pixels] at pixels' hit' miss'
  -- on the sprite, a pixel that is lit between the draws was off before them
  have lit {px : Fin 64} {py : Fin 32} (h : SpriteHits s (s.reg x) (s.reg y) n px py) :
      ¬ (s.fb.pixel px py = true ↔ SpriteHits s (s.reg x) (s.reg y) n px py) ↔ s.fb.pixel px py = false := by
    simp [h]
  have flag : (∃ px py, SpriteHits s (s.reg x) (s.reg y) n px py ∧ s.fb.pixel px py = false) → u.reg vf = 1 :=
    fun ⟨px, py, h, off⟩ => hit' ⟨px, py, h, (lit h).mpr off⟩
  refine ⟨u, draw', fun px py => ?_, flag, fun miss => ?_, fun off bits => ?_⟩
  · rw [Bool.eq_iff_iff, pixels', toggle_toggle]
  · exact miss' fun ⟨px, py, h, on⟩ => miss ⟨px, py, h, (lit h).mp on⟩
  · obtain ⟨px, py, h⟩ := exists_spriteHits (s.reg x) (s.reg y) bits
    exact flag ⟨px, py, h, off px py h⟩

end Sys2Proof.Machine
end

section
/-! PROOFS. The keypad and the timers (spec/44_keys_timers.md R250, R251, R253, R272; 60_exceptions.md R292). -/

namespace Sys2Proof.Machine

/-! ## SKP and SKNP (R250, R251, R272) -/

/-- A skip by a key's bit changes pc, and the draw counter as `KeyHeld` did. -/
theorem exec_keySkip {i : Instr} {s : State} {k : Byte} {c : Bool}
    (he : exec i s = .next ((s.afterKeyHeld k).skipIf c)) :
    ∃ t, exec i s = .next t ∧ t.pc = s.pc + (if c = true then 4#16 else 2#16) ∧ OnlyPc s t ∧
      t.draws = (s.afterKeyHeld k).draws := by
  refine ⟨_, he, pc_keySkip s k c, ?_, by rw [State.skipIf_eq]; rfl⟩
  rw [State.skipIf_eq]
  rcases s.afterKeyHeld_eq k with h | h <;> rw [h] <;> exact OnlyPc.jump s (s.pc + if c then 4#16 else 2#16)

theorem State.keyHeld_of_le {s : State} {k : Byte} (h : k.toNat ≤ 0xF) : s.keyHeld k = s.keys.getLsbD k.toNat :=
  if_pos h

theorem State.keyHeld_of_gt {s : State} {k : Byte} (h : k.toNat > 0xF) :
    s.keyHeld k = highKeyHeld s.params.keyHigh (Config.highKeyHeld s.draws) := if_neg (Nat.not_le.mpr h)

/-- SKNP's test is SKP's negated, so its skip is the other one. -/
theorem advance_not (c : Bool) :
    (if (!c) = true then 4#16 else 2#16 : Word) = if c = true then 2#16 else 4#16 := by
  cases c <;> rfl

/-- Settles O40: for a key's index the bit is the mask's. -/
theorem skipsOnHeldKey : Obligations.SkipsOnHeldKey := by
  intro x s key
  constructor
  · obtain ⟨t, next, pc, frame, -⟩ := exec_keySkip (i := .skp x) (s := s) rfl
    exact ⟨t, next, by rw [pc, State.keyHeld_of_le key], frame⟩
  · obtain ⟨t, next, pc, frame, -⟩ := exec_keySkip (i := .sknp x) (s := s) rfl
    exact ⟨t, next, by rw [pc, advance_not, State.keyHeld_of_le key], frame⟩

/-- Settles O41: above 0xF the bit is 0 under `not_pressed`, and the one drawn under `draw`. -/
theorem skipsOnHighKey : Obligations.SkipsOnHighKey := by
  intro x s high
  have held := State.keyHeld_of_gt (s := s) high
  obtain ⟨t, next, pc, frame, draws⟩ := exec_keySkip (i := .skp x) (s := s) rfl
  obtain ⟨t', next', pc', frame', draws'⟩ := exec_keySkip (i := .sknp x) (s := s) rfl
  rw [advance_not] at pc'
  rw [held] at pc pc'
  refine ⟨fun policy => ?_, fun policy => ?_⟩
  · rw [policy] at pc pc'
    exact ⟨⟨t, next, pc, frame⟩, t', next', pc', frame'⟩
  · have drew : s.afterKeyHeld (s.reg x) = s.drew := if_pos ⟨high, policy⟩
    have moved : s.drew.draws ≠ s.draws := Nat.succ_ne_self _
    rw [policy] at pc pc'
    rw [drew] at draws draws'
    exact ⟨⟨t, next, pc, frame, draws ▸ moved⟩, t', next', pc', frame', draws' ▸ moved⟩

/-! ## LD Vx,K (R253) -/

theorem exec_ldVxK_of_none {s : State} (x : RegIdx) (h : s.pending = none) : exec (.ldVxK x) s = .next s := by
  simp only [exec, execLdVxK, h]

theorem exec_ldVxK_of_some {s : State} {p : Nibble} (x : RegIdx) (h : s.pending = some p) :
    exec (.ldVxK x) s = s.finishReg x (p.zeroExtend 8) := by
  simp only [exec, execLdVxK, h]; rfl

/-- Settles O42: with no key pending it is no change at all, with one a write of Vx. -/
theorem waitForKey : Obligations.WaitForKey := by
  refine fun x s => ⟨exec_ldVxK_of_none x, fun p pending => ?_⟩
  obtain ⟨t, next, vx, rest⟩ := exec_finishReg_split (exec_ldVxK_of_some x pending)
  exact ⟨t, next, by rw [vx]; exact BitVec.toNat_setWidth_of_le (by omega), rest⟩

/-! ## The tick (R292) -/

theorem toNat_tickTimer_stop (t : Byte) : (tickTimer .stop t).toNat = t.toNat - 1 := by
  simp only [tickTimer]
  split
  · exact BitVec.toNat_sub_of_le (by rw [BitVec.le_def]; exact ‹_›)
  · omega

theorem toNat_tickTimer_wrap (t : Byte) : (tickTimer .wrap t).toNat = (t.toNat + 255) % 256 := by
  rw [tickTimer, BitVec.toNat_sub, Nat.add_comm]; rfl

/-- Settles O44: each timer by its policy; a tick writes the timers alone. -/
theorem tickCountsDown : Obligations.TickCountsDown := by
  refine fun s => ⟨fun stop => ?_, fun wrap => ?_, rfl, fun _ => rfl, rfl, ⟨rfl, fun _ => rfl⟩, ⟨rfl, rfl⟩,
    fun _ => rfl, fun _ _ => rfl, rfl, rfl, rfl⟩
  · rw [State.tick, State.setST_dt, State.setST_st, State.setDT_dt, stop]
    exact ⟨toNat_tickTimer_stop _, toNat_tickTimer_stop _⟩
  · rw [State.tick, State.setST_dt, State.setST_st, State.setDT_dt, wrap]
    exact ⟨toNat_tickTimer_wrap _, toNat_tickTimer_wrap _⟩

end Sys2Proof.Machine
end

section
/-! PROOFS. Reset and launch (spec/10_state.md R38; 20_memory.md R59; 70_reset_and_hazards.md R320, R321). -/

namespace Sys2Proof.Machine

/-- Settles O46: a longer image has no reset; the others load `hostReset`, whose fields are R38's. -/
theorem hostResetLoadsResetState : Obligations.HostResetLoadsResetState := by
  refine fun s image l => ⟨fun long => if_neg (Nat.not_le.mpr long), fun fits => ?_⟩
  have reset := s.hostReset_resetState image l
  refine ⟨_, if_pos fits, reset, rfl, rfl, rfl, rfl, rfl, reset.stack, fun a h => ?_, fun zero => ?_, fun launch => ?_⟩
  · exact s.hostReset_read image l a h (Nat.lt_of_lt_of_le h fits)
  · obtain ⟨dt, st⟩ := reset.timers zero
    exact ⟨reset.regs zero, reset.index zero, dt, st, reset.pixels zero⟩
  · simp [State.hostReset, State.reg, launch, resetInputs]

/-- The image of an 80-byte font: the font, the gap up to 0x200, the ROM. -/
theorem launchImage_eq {font : List Byte} (h : font.length = fontSize) (rom : List Byte) :
    ∃ gap, launchImage font rom = font ++ gap ++ rom ∧ font.length + gap.length = 0x200 := by
  refine ⟨List.replicate (0x200 - font.length) 0, ?_, ?_⟩
  · rw [launchImage, List.take_of_length_le (Nat.le_of_eq h)]
  · rw [List.length_replicate, h]; rfl

/-- Settles O47: the font fills the first 80 bytes, and the gap after it ends where the ROM begins. -/
theorem launchImageIsWellFormed : Obligations.LaunchImageIsWellFormed := by
  intro font rom hfont hrom
  obtain ⟨gap, image, hgap⟩ := launchImage_eq hfont rom
  have len : (launchImage font rom).length = 0x200 + rom.length := by
    rw [image, List.length_append, List.length_append, hgap]
  have read {k : Nat} (hk : k < (launchImage font rom).length) :
      (Memory.ofBytes 0 (launchImage font rom)).read k = (launchImage font rom)[k] := by
    have := Memory.read_ofBytes 0 _ k hk (by simp only [memorySize]; omega)
    rwa [Nat.zero_add] at this
  refine ⟨hfont, hrom, fun k hk => ?_, fun k hk => ?_⟩
  · rw [read (by omega)]; simp [image, hk]
  · rw [read (by omega)]; simp [image, ← hgap, Nat.add_assoc]

/-- Settles O54: the reset state is what a reset from it with no image loads. -/
theorem resetMeetsInvariant : Obligations.ResetMeetsInvariant := by
  have reset : State.reset = State.reset.hostReset [] LaunchInputs.zero := rfl
  have h : ResetState State.reset := reset ▸ State.hostReset_resetState ..
  exact ⟨reset ▸ .hostReset .., h, rfl, rfl, rfl, rfl, h.regs rfl, rfl, rfl, rfl, h.stack, h.pixels rfl, fun _ => rfl,
    rfl, rfl, rfl⟩

end Sys2Proof.Machine
end

section
/-! PROOFS. Runs from two states that differ in general registers and timers (spec/10_state.md R22; 60_exceptions.md
R293, R294). Two states agree on a set of registers and on the timers named; an instruction that reads no register
outside the set answers alike, in states that agree as far. The three statements choose the set and the timers. -/

namespace Sys2Proof.Machine

/-- The general registers and the timers replaced. -/
def State.withRegsTimers (s : State) (v : Vector Byte 16) (d e : Byte) : State := { s with v := v, dt := d, st := e }

/-- The states agree on the registers of `V`, on DT if `D`, on ST if `T`, and on everything else. -/
structure Agree (V : RegIdx → Prop) (D T : Prop) (s s' : State) : Prop where
  reg  : ∀ q, V q → s'.reg q = s.reg q
  dt   : D → s'.dt = s.dt
  st   : T → s'.st = s.st
  rest : s'.withRegsTimers s.v s.dt s.st = s

/-- The same result with its next state changed. -/
def mapNext (f : State → State) : Result → Result
  | .next t => .next (f t)
  | .fault r => .fault r
  | .refused r => .refused r

/-- Two results alike, but for next states that are related. -/
inductive ResultsAlike (R : State → State → Prop) : Result → Result → Prop where
  | next {t t' : State} (h : R t t') : ResultsAlike R (.next t) (.next t')
  | fault (r : Fault) : ResultsAlike R (.fault r) (.fault r)
  | refused (r : Refusal) : ResultsAlike R (.refused r) (.refused r)

theorem ResultsAlike.mapNext_eq {R : State → State → Prop} {r r' : Result} {f : State → State}
    (h : ResultsAlike R r r') (hf : ∀ t t', R t t' → f t' = f t) : mapNext f r' = mapNext f r := by
  cases h with
  | next h => exact congrArg Host.Outcome.next (hf _ _ h)
  | fault r => rfl
  | refused r => rfl

theorem ResultsAlike.ite {R : State → State → Prop} {a a' b b' : Result} (c : Prop) [Decidable c]
    (ha : ResultsAlike R a a') (hb : ResultsAlike R b b') :
    ResultsAlike R (if c then a else b) (if c then a' else b') := by
  split
  · exact ha
  · exact hb

section
variable {V : RegIdx → Prop} {D T : Prop} {s s' : State}

/-! ## Agreement -/

theorem Agree.eq (h : Agree (fun _ => True) True True s s') : s' = s := by
  have v : s'.v = s.v := State.v_ext fun r => h.reg r trivial
  rw [← h.rest, State.withRegsTimers, ← v, ← h.dt trivial, ← h.st trivial]

/-- A register given the same value in both states agrees from then on. -/
theorem Agree.setReg_insert (h : Agree V D T s s') (x : RegIdx) (b : Byte) :
    Agree (fun q => q = x ∨ V q) D T (s.setReg x b) (s'.setReg x b) where
  reg q hq := by
    rw [State.reg_setReg, State.reg_setReg]
    split
    · rfl
    · exact h.reg q (hq.resolve_left ‹_›)
  dt := h.dt
  st := h.st
  rest := congrArg (fun u => (u.setReg x b).withRegsTimers (s.setReg x b).v s.dt s.st) h.rest

theorem Agree.setReg (h : Agree V D T s s') (x : RegIdx) (b : Byte) : Agree V D T (s.setReg x b) (s'.setReg x b) :=
  { h.setReg_insert x b with reg := fun q hq => (h.setReg_insert x b).reg q (.inr hq) }

theorem Agree.setDT (h : Agree V D T s s') (b : Byte) : Agree V True T (s.setDT b) (s'.setDT b) where
  reg := h.reg
  dt _ := rfl
  st := h.st
  rest := congrArg (State.setDT · b) h.rest

theorem Agree.setST (h : Agree V D T s s') (b : Byte) : Agree V D True (s.setST b) (s'.setST b) where
  reg := h.reg
  dt := h.dt
  st _ := rfl
  rest := congrArg (State.setST · b) h.rest

theorem Agree.weaken_dt (h : Agree V True T s s') : Agree V D T s s' := { h with dt := fun _ => h.dt trivial }

theorem Agree.weaken_st (h : Agree V D True s s') : Agree V D T s s' := { h with st := fun _ => h.st trivial }

/-! ## Operations that do not look at the registers and timers -/

/-- An operation that neither reads nor writes a register or timer answers alike. -/
theorem Agree.results {g : State → Result}
    (hg : ∀ u v d e, g (u.withRegsTimers v d e) = mapNext (·.withRegsTimers v d e) (g u)) (h : Agree V D T s s') :
    ResultsAlike (Agree V D T) (g s) (g s') := by
  have left := hg s' s.v s.dt s.st
  have right : g s' = _ := hg s' s'.v s'.dt s'.st
  rw [h.rest] at left
  rw [left]
  cases answer : g s' with
  | next t =>
    rw [answer] at right
    have ht : t = t.withRegsTimers s'.v s'.dt s'.st := Host.Outcome.next.inj right
    refine .next ⟨fun q hq => ?_, fun hd => ?_, fun hs => ?_, rfl⟩
    · rw [ht]; exact h.reg q hq
    · rw [ht]; exact h.dt hd
    · rw [ht]; exact h.st hs
  | fault r => exact .fault r
  | refused r => exact .refused r

theorem Agree.update {f : State → State}
    (hf : ∀ u v d e, f (u.withRegsTimers v d e) = (f u).withRegsTimers v d e) (h : Agree V D T s s') :
    Agree V D T (f s) (f s') := by
  have alike := h.results (g := fun u => .next (f u)) fun u v d e => congrArg Host.Outcome.next (hf u v d e)
  cases alike with
  | next h => exact h

theorem Agree.jump (h : Agree V D T s s') (w : Word) : Agree V D T (s.jump w) (s'.jump w) :=
  h.update (f := (State.jump · w)) fun _ _ _ _ => rfl

theorem Agree.goNext (h : Agree V D T s s') : Agree V D T s.goNext s'.goNext := h.update fun _ _ _ _ => rfl

theorem Agree.setI (h : Agree V D T s s') (w : Word) : Agree V D T (s.setI w) (s'.setI w) :=
  h.update (f := (State.setI · w)) fun _ _ _ _ => rfl

theorem Agree.setFB (h : Agree V D T s s') (f : FrameBuffer) : Agree V D T (s.setFB f) (s'.setFB f) :=
  h.update (f := (State.setFB · f)) fun _ _ _ _ => rfl

theorem Agree.withMem (h : Agree V D T s s') (m : Memory) : Agree V D T { s with mem := m } { s' with mem := m } :=
  h.update (f := fun u => { u with mem := m }) fun _ _ _ _ => rfl

theorem Agree.drew (h : Agree V D T s s') : Agree V D T s.drew s'.drew := h.update fun _ _ _ _ => rfl

theorem Agree.skipIf (h : Agree V D T s s') (c : Bool) : Agree V D T (s.skipIf c) (s'.skipIf c) :=
  h.update (f := (State.skipIf · c)) fun _ _ _ _ => by cases c <;> rfl

theorem Agree.afterKeyHeld (h : Agree V D T s s') (k : Byte) : Agree V D T (s.afterKeyHeld k) (s'.afterKeyHeld k) :=
  h.update (f := (State.afterKeyHeld · k)) fun _ v d e => by
    simp only [State.afterKeyHeld, apply_ite (State.withRegsTimers · v d e)]; rfl

/-- The fields that instructions read besides registers and timers. -/
theorem Agree.fields (h : Agree V D T s s') :
    s'.i = s.i ∧ s'.mem = s.mem ∧ s'.fb = s.fb ∧ s'.keys = s.keys ∧ s'.pending = s.pending ∧ s'.draws = s.draws ∧
      s'.params = s.params := by
  rw [← h.rest]; exact ⟨rfl, rfl, rfl, rfl, rfl, rfl, rfl⟩

theorem Agree.trap (h : Agree V D T s s') (k : FaultKind) (i : Instr) :
    ResultsAlike (Agree V D T) (s.trap k i) (s'.trap k i) := h.results (g := (State.trap · k i)) fun _ _ _ _ => rfl

theorem Agree.ret (h : Agree V D T s s') : ResultsAlike (Agree V D T) (exec .ret s) (exec .ret s') := by
  refine h.results fun u v d e => ?_
  by_cases hd : 0 < u.depth.val
  · rw [exec_ret_of_pop (u.pop_spec hd), exec_ret_of_pop ((u.withRegsTimers v d e).pop_spec hd)]; rfl
  · rw [exec_ret_of_empty (u.pop_empty hd), exec_ret_of_empty ((u.withRegsTimers v d e).pop_empty hd)]; rfl

theorem Agree.call (h : Agree V D T s s') (nnn : Addr12) :
    ResultsAlike (Agree V D T) (exec (.call nnn) s) (exec (.call nnn) s') := by
  refine h.results fun u v d e => ?_
  by_cases hd : u.depth.val < 16
  · rw [exec_call_of_push nnn (u.push_spec _ hd), exec_call_of_push nnn ((u.withRegsTimers v d e).push_spec _ hd)]; rfl
  · rw [exec_call_of_full nnn (u.push_full _ hd), exec_call_of_full nnn ((u.withRegsTimers v d e).push_full _ hd)]; rfl

/-- A store through I as one choice, from its two cases. -/
theorem State.storeAtI_eq (s : State) (i : Instr) {last : Nat} {bs : List Byte} (hl : bs.length = last + 1) :
    s.storeAtI i last bs = if s.beyond last = true then s.trap .outOfBounds i
      else .next ({ s with mem := s.mem.writeAll (s.ea 0) bs } : State).goNext := by
  rcases s.storeAtI_spec i last bs hl with ⟨hb, he⟩ | ⟨hb, he⟩
  · rw [if_pos hb, he]; rfl
  · rw [if_neg (Bool.eq_false_iff.mp hb), he]

theorem Agree.storeAtI (h : Agree V D T s s') (i : Instr) {last : Nat} {bs : List Byte} (hl : bs.length = last + 1) :
    ResultsAlike (Agree V D T) (s.storeAtI i last bs) (s'.storeAtI i last bs) := by
  obtain ⟨index, mem, -⟩ := h.fields
  have address (k : Nat) : s'.ea k = s.ea k := by rw [State.ea, State.ea, index]
  have beyond : s'.beyond last = s.beyond last := by rw [State.beyond, State.beyond, address]
  rw [State.storeAtI_eq s i hl, State.storeAtI_eq s' i hl, beyond, address, mem]
  exact .ite _ (h.trap _ _) (.next (h.withMem _).goNext)

/-! ## Operations that write registers -/

theorem Agree.finishReg (h : Agree V D T s s') (x : RegIdx) (b : Byte) :
    ResultsAlike (Agree V D T) (s.finishReg x b) (s'.finishReg x b) := .next (h.setReg x b).goNext

theorem Agree.finishFlagReg (h : Agree V D T s s') (flag : Byte) (x : RegIdx) (b : Byte) :
    ResultsAlike (Agree V D T) (s.finishFlagReg flag x b) (s'.finishFlagReg flag x b) :=
  .next ((h.setReg vf flag).setReg x b).goNext

theorem Agree.unlessAlias (h : Agree V D T s s') (c : Bool) {r r' : Result} (hr : ResultsAlike (Agree V D T) r r') :
    ResultsAlike (Agree V D T) (s.unlessAlias c r) (s'.unlessAlias c r') := by
  obtain ⟨-, -, -, -, -, -, params⟩ := h.fields
  unfold State.unlessAlias
  rw [params]
  exact .ite _ (.refused _) hr

theorem Agree.setRegs (h : Agree V D T s s') (k : Nat) (bs : List Byte) :
    Agree V D T (s.setRegs k bs) (s'.setRegs k bs) := by
  induction bs generalizing s s' k with
  | nil => exact h
  | cons b bs ih => exact ih (h.setReg _ b) (k + 1)

theorem Agree.ldRegs (h : Agree V D T s s') (x : RegIdx) :
    ResultsAlike (Agree V D T) (exec (.ldRegs x) s) (exec (.ldRegs x) s') := by
  obtain ⟨index, mem, -⟩ := h.fields
  simp only [exec, execLdRegs, State.beyond, State.ea, index, State.readBlock_congr mem]
  refine .ite _ (h.trap _ _) ?_
  cases s.readBlock _ _ with
  | none => exact .fault _
  | some bs => exact .next (h.setRegs 0 bs).goNext

theorem Agree.drawChecked (h : Agree V D T s s') {x y : RegIdx} (hx : s'.reg x = s.reg x) (hy : s'.reg y = s.reg y)
    (n : Nibble) : ResultsAlike (Agree V D T) (s.drawChecked x y n) (s'.drawChecked x y n) := by
  obtain ⟨index, mem, fb, -⟩ := h.fields
  simp only [State.drawChecked, State.spriteBeyond, State.ea, State.drawn, index, State.readBlock_congr mem, fb, hx, hy]
  refine .ite _ (h.trap _ _) ?_
  cases s.readBlock _ _ with
  | none => exact .fault _
  | some rows => exact .next ((h.setFB _).setReg vf _).goNext

theorem regBlock_congr {x : RegIdx} (hr : ∀ q : RegIdx, q.toNat ≤ x.toNat → s'.reg q = s.reg q) :
    s'.regBlock x = s.regBlock x := by
  refine List.map_congr_left fun k hk => hr _ ?_
  have := List.mem_range.mp hk
  rw [BitVec.toNat_ofNat]; omega

/-! ## Every instruction -/

theorem or_beq_left (x y : RegIdx) : (x == x || x == y) = true := by simp

theorem or_beq_right (x y : RegIdx) : (y == x || y == y) = true := by simp

/-- The results depend on no register that is not read, and on a timer only for LD Vx,DT. -/
theorem exec_agree {i : Instr} (h : Agree V D T s s') (hr : ∀ q, readsReg i q = true → s'.reg q = s.reg q)
    (hd : ∀ x, i = .ldVxDT x → s'.dt = s.dt) : ResultsAlike (Agree V D T) (exec i s) (exec i s') := by
  obtain ⟨index, -, -, keys, pending, draws, params⟩ := h.fields
  cases i
  case cls => exact .next (h.setFB _).goNext
  case jp nnn => exact .next (h.jump _)
  case ldI nnn => exact .next (h.setI _).goNext
  case ret => exact h.ret
  case call nnn => exact h.call nnn
  case ldByte x kk => exact h.finishReg x kk
  case ldRegs x => exact h.ldRegs x
  case ldVxDT x =>
    simp only [exec, execLdVxDT, hd x rfl]
    exact h.finishReg x s.dt
  case ldVxK x =>
    simp only [exec, execLdVxK, pending]
    cases s.pending with
    | none => exact .next h
    | some p => exact h.finishReg x _
  case rnd x kk =>
    simp only [exec, execRnd, draws]
    exact h.drew.finishReg x _
  -- the operand is Vx
  case seByte x kk | sneByte x kk =>
    simp only [exec, execSeByte, execSneByte, hr x (beq_self_eq_true x)]
    exact .next (h.skipIf _)
  case addByte x kk =>
    simp only [exec, execAddByte, hr x (beq_self_eq_true x)]
    exact h.finishReg x _
  case shr x | shl x =>
    simp only [exec, execShr, execShl, hr x (beq_self_eq_true x)]
    exact h.unlessAlias _ (h.finishFlagReg _ x _)
  case skp x | sknp x =>
    simp only [exec, execSkp, execSknp, State.keyHeld, keys, draws, params, hr x (beq_self_eq_true x)]
    exact .next ((h.afterKeyHeld _).skipIf _)
  case ldDT x =>
    simp only [exec, execLdDT, hr x (beq_self_eq_true x)]
    exact .next (h.setDT _).weaken_dt.goNext
  case ldST x =>
    simp only [exec, execLdST, hr x (beq_self_eq_true x)]
    exact .next (h.setST _).weaken_st.goNext
  case addI x =>
    simp only [exec, execAddI, State.indexSum, index, params, hr x (beq_self_eq_true x)]
    cases indexAfterAdd _ _ with
    | none => exact h.trap _ _
    | some w => exact .next (h.setI w).goNext
  case ldF x =>
    simp only [exec, execLdF, hr x (beq_self_eq_true x)]
    exact .ite _ (h.trap _ _) (.next (h.setI _).goNext)
  case ldB x =>
    simp only [exec, execLdB, hr x (beq_self_eq_true x)]
    exact h.storeAtI _ rfl
  -- other operands
  case jpV0 nnn =>
    simp only [exec, execJpV0, hr 0x0#4 rfl]
    exact .next (h.jump _)
  case ldReg x y =>
    simp only [exec, execLdReg, hr y (beq_self_eq_true y)]
    exact h.finishReg x _
  case stRegs x =>
    simp only [exec, execStRegs, regBlock_congr fun q hq => hr q (decide_eq_true hq)]
    exact h.storeAtI _ (s.regBlock_length x)
  case seReg x y | sneReg x y =>
    simp only [exec, execSeReg, execSneReg, hr x (or_beq_left x y), hr y (or_beq_right x y)]
    exact .next (h.skipIf _)
  case orReg x y | andReg x y | xorReg x y =>
    simp only [exec, execOrReg, execAndReg, execXorReg, hr x (or_beq_left x y), hr y (or_beq_right x y)]
    exact h.finishReg x _
  case addReg x y | sub x y | subn x y =>
    simp only [exec, execAddReg, execSub, execSubn, hr x (or_beq_left x y), hr y (or_beq_right x y)]
    exact h.unlessAlias _ (h.finishFlagReg _ x _)
  case drw x y n => exact h.unlessAlias _ (h.drawChecked (hr x (or_beq_left x y)) (hr y (or_beq_right x y)) n)

end

/-! ## The statements -/

theorem blankReg_eq_mapNext (r : RegIdx) (o : Result) : blankReg r o = mapNext (State.setReg · r 0) o := by
  cases o <;> rfl

theorem blankST_eq_mapNext (o : Result) : blankST o = mapNext (State.setST · 0) o := by
  cases o <;> rfl

/-- Settles O49: the states agree on the registers other than r, and blanking r makes the results equal. -/
theorem readsOnlyListedRegisters : Obligations.ReadsOnlyListedRegisters := by
  intro i s r b unread
  have other {q : RegIdx} (hq : q ≠ r) : (s.setReg r b).reg q = s.reg q := by rw [State.reg_setReg, if_neg hq]
  have before : Agree (· ≠ r) True True s (s.setReg r b) := ⟨fun q hq => other hq, fun _ => rfl, fun _ => rfl, rfl⟩
  have reads (q : RegIdx) (hq : readsReg i q = true) : q ≠ r := by rintro rfl; simp [unread] at hq
  have alike := exec_agree before (fun q hq => other (reads q hq)) fun _ _ => rfl
  rw [blankReg_eq_mapNext, blankReg_eq_mapNext]
  refine alike.mapNext_eq fun t t' agree => ?_
  have blanked := agree.setReg_insert r 0
  exact Agree.eq { blanked with reg := fun q _ => blanked.reg q (em (q = r)) }

/-- Settles O50: the states agree on all but ST, and blanking ST makes the results equal. -/
theorem soundTimerHasNoObserver : Obligations.SoundTimerHasNoObserver := by
  intro i s b
  have before : Agree (fun _ => True) True False s (s.setST b) := ⟨fun _ _ => rfl, fun _ => rfl, nofun, rfl⟩
  have alike := exec_agree (i := i) before (fun _ _ => rfl) fun _ _ => rfl
  rw [blankST_eq_mapNext, blankST_eq_mapNext]
  exact alike.mapNext_eq fun t t' agree => (agree.setST 0).eq

/-- A state that agrees with `t` on all but the timers, and has the timers of `t.tick`, is `t.tick`. -/
theorem Agree.eq_tick {t t' : State} (h : Agree (fun _ => True) False False t t') (hdt : t'.dt = t.tick.dt)
    (hst : t'.st = t.tick.st) : t' = t.tick :=
  Agree.eq ⟨h.reg, fun _ => hdt, fun _ => hst, congrArg (·.withRegsTimers t.v t.tick.dt t.tick.st) h.rest⟩

/-- The timers of a tick depend on the timers and the parameters alone. -/
theorem tick_timers_congr {s t : State} (dt : t.dt = s.dt) (st : t.st = s.st) (params : t.params = s.params) :
    t.tick.dt = s.tick.dt ∧ t.tick.st = s.tick.st := by
  simp only [State.tick, State.setST_dt, State.setDT_dt, State.setST_st, dt, st, params, and_self]

/-- Settles O45: the states before and after the tick agree on all but the timers, which the instruction neither reads
nor, by its frame, writes. -/
theorem tickCommutesWithStep : Obligations.TickCommutesWithStep := by
  intro i s noTimer
  have before : Agree (fun _ => True) False False s s.tick := ⟨fun _ _ => rfl, nofun, nofun, rfl⟩
  have alike := exec_agree (i := i) before (fun _ _ => rfl) fun x hx => absurd hx (noTimer x).1
  refine ⟨fun t h => ?_, fun r h => ?_⟩ <;> rw [h] at alike
  · have keeps {u w : State} (hw : exec i u = .next w) : w.dt = u.dt ∧ w.st = u.st ∧ w.params = u.params :=
      have frame := exec_frame hw
      ⟨frame.dt fun x => (noTimer x).2.1, frame.st fun x => (noTimer x).2.2, frame.ports.2.2⟩
    obtain ⟨dt, st, params⟩ := keeps h
    obtain ⟨tickDT, tickST⟩ := tick_timers_congr dt st params
    generalize ho : exec i s.tick = o at alike
    cases alike with
    | next agree =>
      obtain ⟨dt', st', -⟩ := keeps ho
      rw [agree.eq_tick (dt'.trans tickDT.symm) (st'.trans tickST.symm)]
  · generalize exec i s.tick = o at alike ⊢
    cases alike; rfl

end Sys2Proof.Machine
end
